-- ==== Sys2Proof/Word.lean ====
section
/-! DEFINITION. Bytes, words and 16-byte values (00_scope R10, 20_memory R52). -/

namespace Sys2Proof

/-- A byte: 8 bits, unsigned (R10). -/
abbrev Byte := BitVec 8

/-- A register of the window: 32 bits (R22). -/
abbrev Word := BitVec 32

/-- Four like things in order: the four registers of a 16-byte value, or the four bytes of a register (R52). -/
structure Quad (α : Type) where
  x0 : α
  x1 : α
  x2 : α
  x3 : α
deriving DecidableEq, Repr, Inhabited

/-- `Bytes16` (R10): sixteen bytes, byte `4j + k` the `k`-th of the `j`-th four. -/
abbrev Bytes16 := Quad (Quad Byte)

/-- The same thing four times. -/
def Quad.fill {α : Type} (v : α) : Quad α := ⟨v, v, v, v⟩

/-- Element by element. -/
def Quad.map {α β : Type} (f : α → β) (q : Quad α) : Quad β := ⟨f q.x0, f q.x1, f q.x2, f q.x3⟩

/-- Two values element by element. -/
def Quad.zipWith {α β γ : Type} (f : α → β → γ) (p : Quad α) (q : Quad β) : Quad γ :=
  ⟨f p.x0 q.x0, f p.x1 q.x1, f p.x2 q.x2, f p.x3 q.x3⟩

/-- Element `j`, for `j` in 0..3. -/
def Quad.get {α : Type} (q : Quad α) (j : Nat) : α :=
  match j with
  | 0 => q.x0
  | 1 => q.x1
  | 2 => q.x2
  | _ => q.x3

/-- The four elements in order. -/
def Quad.toList {α : Type} (q : Quad α) : List α := [q.x0, q.x1, q.x2, q.x3]

end Sys2Proof
end

