-- ==== Sys2Proof/Config.lean ====
section
/-! DEFINITION. What the spec leaves to the platform (00_scope R9, 10_state R42). Each open value is a constant with no
body: no proof can see what it is. -/

namespace Sys2Proof

/-- `CIPHER` (R109): the block cipher `E(key, block)`, a total function of key and block alone. Log 2. -/
opaque Config.cipher : Bytes16 → Bytes16 → Bytes16

/-- `INIT_MAY_FAIL` (R9): whether a START initialisation can fail. Log 3. -/
opaque Config.initMayFail : Bool

/-- FREE VALUE. The draw of START's completion (R134), one for each instance and each number of draws before it. Log 3. -/
opaque Config.initDraw : Nat → Nat → Bool

/-- `BASE / 0x100` (R51): which multiple of 0x100 the windows begin at. Log 4. -/
opaque Config.basePage : Nat

/-- `N_INST - 1` (R9): how many instances there are beside instance 0. Log 4. -/
opaque Config.moreInst : Nat

/-- `BASE` (R9): the bus address of instance 0, a multiple of 0x100. -/
def Config.base : Nat := 0x100 * Config.basePage

/-- `N_INST` (R9), at least 1. -/
def Config.nInst : Nat := Config.moreInst + 1

/-- Whether the initialisation of instance `k` succeeds, `n` draws having been taken before (R134): certainly when
`INIT_MAY_FAIL` is false, else as the draw says. -/
def Config.initOk (k n : Nat) : Bool := !Config.initMayFail || Config.initDraw k n

end Sys2Proof
end

