-- ==== Sys2Proof/Syntax.lean ====
section
/-! DEFINITION. The instructions: one constructor of `Instr` per row of spec/opcode_table.json, and the two formats they
are read from (CMD32, 30_encoding R70; BUS32, 42_register_access R170). -/

namespace Sys2Proof

/-- The mode set (R8): exactly these two. -/
inductive Mode where
  | noChaining
  | cbcChaining
deriving DecidableEq, Repr, Inhabited

/-- A command word once decoded (R74, R76): every word is exactly one of these. -/
inductive Command where
  | start (m : BitVec 8)
  | update
  | final (n : BitVec 4)
  | illegal (w : Word)
deriving DecidableEq, Repr

/-- The direction of a host access, with its data word for a write (R170). -/
inductive Dir where
  | read
  | write (v : Word)
deriving DecidableEq, Repr

/-- A host access as it is delivered to instance `k` at offset `off` of its window (R51, R170). -/
structure Access where
  k    : Nat
  off  : BitVec 8
  size : Nat
  dir  : Dir
deriving DecidableEq, Repr

/-- What an instruction is read from: a command word (format CMD32) or a host access (format BUS32). -/
inductive Encoding where
  | cmd32 (k : Nat) (w : Word)
  | bus32 (a : Access)
deriving DecidableEq, Repr

/-- The rows of spec/opcode_table.json. `k` is the instance the access is for (R51), `v` a write's data word. A command
(START, UPDATE, FINAL, ILLEGAL) is a 4-byte write of its word to CMD of instance `k` (R79). -/
inductive Instr where
  | start (k : Nat) (m : BitVec 8)
  | update (k : Nat)
  | final (k : Nat) (n : BitVec 4)
  | wrCmd (k : Nat) (v : Word)
  | rdCmd (k : Nat)
  | rdStatus (k : Nat)
  | wrStatus (k : Nat) (v : Word)
  | rdOutCount (k : Nat)
  | wrOutCount (k : Nat) (v : Word)
  | wrKey0 (k : Nat) (v : Word)
  | rdKey0 (k : Nat)
  | wrKey1 (k : Nat) (v : Word)
  | rdKey1 (k : Nat)
  | wrKey2 (k : Nat) (v : Word)
  | rdKey2 (k : Nat)
  | wrKey3 (k : Nat) (v : Word)
  | rdKey3 (k : Nat)
  | wrIv0 (k : Nat) (v : Word)
  | rdIv0 (k : Nat)
  | wrIv1 (k : Nat) (v : Word)
  | rdIv1 (k : Nat)
  | wrIv2 (k : Nat) (v : Word)
  | rdIv2 (k : Nat)
  | wrIv3 (k : Nat) (v : Word)
  | rdIv3 (k : Nat)
  | wrDin0 (k : Nat) (v : Word)
  | rdDin0 (k : Nat)
  | wrDin1 (k : Nat) (v : Word)
  | rdDin1 (k : Nat)
  | wrDin2 (k : Nat) (v : Word)
  | rdDin2 (k : Nat)
  | wrDin3 (k : Nat) (v : Word)
  | rdDin3 (k : Nat)
  | rdDout0 (k : Nat)
  | wrDout0 (k : Nat) (v : Word)
  | rdDout1 (k : Nat)
  | wrDout1 (k : Nat) (v : Word)
  | rdDout2 (k : Nat)
  | wrDout2 (k : Nat) (v : Word)
  | rdDout3 (k : Nat)
  | wrDout3 (k : Nat) (v : Word)
  | rsvdOffset (k : Nat) (off : BitVec 8) (dir : Dir)
  | badSizeOrAlign (k : Nat) (off : BitVec 8) (size : Nat) (dir : Dir)
  | illegal (k : Nat) (w : Word)
deriving DecidableEq, Repr

/-- The command `c` as an instruction for instance `k`. -/
def Command.toInstr (k : Nat) : Command → Instr
  | .start m => .start k m
  | .update => .update k
  | .final n => .final k n
  | .illegal w => .illegal k w

end Sys2Proof
end

