-- ==== Sys2Proof/Machine/State.lean ====
section
/-! DEFINITION. The state (10_state R22 to R42), the ways a step stops, and the state after reset (70 R230). -/

namespace Sys2Proof.Machine

/-- The result codes of STATUS.ERR (R201). Codes 6 to 15 are never written (R29). Log 15. -/
inductive ErrCode where
  | ok
  | unsupportedMode
  | initError
  | sequenceError
  | illegalCmd
  | lengthError
deriving DecidableEq, Repr

/-- `PEND_OP` (R40): the command in flight. -/
inductive PendOp where
  | none
  | start
  | update
  | final
deriving DecidableEq, Repr

/-- One orchestrator (R22 to R40). STATUS.BUSY is the view `pendOp ≠ none` (R25, log 1) and STATUS.MODE is `modeL`
(R28). CMD has no storage (R23). -/
structure Inst where
  active   : Bool
  outValid : Bool
  err      : ErrCode
  outCount : Word
  key      : Quad Word
  iv       : Quad Word
  din      : Quad Word
  dout     : Quad Word
  keyL     : Bytes16
  chain    : Bytes16
  inL      : Bytes16
  modeL    : Mode
  pendMode : Mode
  pendOp   : PendOp
  /-- The model's own: how many START draws this one has taken (log 3). -/
  draws    : Nat
deriving DecidableEq, Repr

/-- What the outside does next: a host access at a bus address (R170), the completion of the command in flight on
instance `k` (R140), a reset of one or of all instances (R230). Log 6. -/
inductive Event where
  | access (addr : Nat) (size : Nat) (dir : Dir)
  | complete (k : Nat)
  | reset (k : Nat)
  | resetAll
deriving DecidableEq, Repr

/-- What the bus answers to an access: a write done, a read's word, a bus error (R207), or that it is held (R171, R183). -/
inductive Response where
  | written
  | data (w : Word)
  | busError
  | held
deriving DecidableEq, Repr

/-- The machine: its instances in window order (`N_INST` is their number, R51), the accesses delivered and not
completed (R171, R183), the outside's moves to come (log 6), and the bus response of the last step (log 8). -/
structure State where
  insts   : List Inst
  waiting : List Access
  events  : List Event
  resp    : Option Response
deriving DecidableEq, Repr

/-- Why a step stops. -/
inductive Fault where
  /-- Raised by every meaning whose instruction names an instance the platform does not have. No bus address reaches
  such an instance (R51), so no delivered access does. Safe: the model stops (log 10). -/
  | noInstance (k : Nat)
deriving DecidableEq, Repr

/-- Why an instruction has no meaning. -/
inductive Refusal where
  /-- Raised by an arm of `exec` whose instruction has no meaning yet; no arm does. Safe: the model stops. -/
  | notModelled (mnemonic : String)
deriving DecidableEq, Repr

/-- An instance after reset (R230): every register and all hidden state 0, PEND_OP NONE. The model's counter of draws
starts at 0 (DESIGN CHOICE, log 3). -/
def Inst.reset : Inst where
  active   := false
  outValid := false
  err      := .ok
  outCount := 0#32
  key      := Quad.fill 0#32
  iv       := Quad.fill 0#32
  din      := Quad.fill 0#32
  dout     := Quad.fill 0#32
  keyL     := Quad.fill (Quad.fill 0#8)
  chain    := Quad.fill (Quad.fill 0#8)
  inL      := Quad.fill (Quad.fill 0#8)
  modeL    := .noChaining
  pendMode := .noChaining
  pendOp   := .none
  draws    := 0

/-- The machine after reset (R214, R230): `N_INST` instances, each reset; nothing delivered, nothing to come, no
response given (log 13). -/
def State.reset : State where
  insts   := List.replicate Config.nInst Inst.reset
  waiting := []
  events  := []
  resp    := none

/-- Who moves in a step, and on which state: an access to be run, the engine of an instance, the platform resetting one
instance or all, or nobody. -/
inductive Turn where
  | run (a : Access) (s : State)
  | complete (k : Nat) (s : State)
  | reset (k : Nat) (s : State)
  | resetAll (s : State)
  | pass (s : State)
deriving DecidableEq, Repr

end Sys2Proof.Machine
end

