-- ==== Sys2Proof/Machine/Flags.lean ====
section
/-! DEFINITION. STATUS: its fields, its error codes and its word (10_state R24 to R30, 42_register_access R173,
60_exceptions R201). -/

namespace Sys2Proof.Machine

/-- `STATUS.BUSY`, which always equals `PEND_OP != NONE` (R25, R40). -/
def Inst.busy (x : Inst) : Bool := x.pendOp != .none

/-- The code of an error (R201). -/
def errCode : ErrCode → BitVec 4
  | .ok => 0#4
  | .unsupportedMode => 1#4
  | .initError => 2#4
  | .sequenceError => 3#4
  | .illegalCmd => 4#4
  | .lengthError => 5#4

/-- A flag as a register word: 0 or 1. -/
def flagWord (b : Bool) : Word := if b then 1#32 else 0#32

/-- `STATUS.MODE`: 0 for NoChaining, 1 for CBCChaining (R28). -/
def modeFlag : Mode → Bool
  | .noChaining => false
  | .cbcChaining => true

/-- What a read of STATUS returns (R173). -/
def Inst.statusWord (x : Inst) : Word :=
  (errCode x.err).setWidth 32 <<< 4 ||| flagWord (modeFlag x.modeL) <<< 3 ||| flagWord x.outValid <<< 2
    ||| flagWord x.active <<< 1 ||| flagWord x.busy

end Sys2Proof.Machine
end

