-- ==== Sys2Proof/WellFormed.lean ====
section
/-! DEFINITION. Which instruction terms stand for something the host can do. Only three rows have operands the type
leaves too wide: the two bus-error rows (42_register_access R185, R186) and ILLEGAL (30_encoding R76, R77). -/

namespace Sys2Proof

/-- The legal words, as R77 lists them: START with some mode code, UPDATE, FINAL with some byte count. -/
def legalWord (w : Word) : Bool :=
  w == (0x00000001#32 ||| (w.extractLsb' 8 8).setWidth 32 <<< 8)
    || w == 0x00000002#32
    || w == (0x00000003#32 ||| (w.extractLsb' 16 4).setWidth 32 <<< 16)

/-- The reserved offsets that a 4-byte access can name (R185): 0x0C and the multiples of 4 in 0x50..0xFC. -/
def reservedOffset (off : BitVec 8) : Bool :=
  off.toNat % 4 == 0 && (off.toNat == 0x0C || 0x50 ≤ off.toNat)

/-- A wrong size or a misaligned offset (R186). -/
def badAccess (off : BitVec 8) (size : Nat) : Bool :=
  size != 4 || off.toNat % 4 != 0

/-- The instruction stands for an access or a command word that the table gives its row. -/
def Instr.wf : Instr → Bool
  | .rsvdOffset _ off _ => reservedOffset off
  | .badSizeOrAlign _ off size _ => badAccess off size
  | .illegal _ w => !legalWord w
  | .start _ _ | .update _ | .final _ _ => true
  | .wrCmd _ _ | .rdCmd _ | .rdStatus _ | .wrStatus _ _ | .rdOutCount _ | .wrOutCount _ _ => true
  | .wrKey0 _ _ | .rdKey0 _ | .wrKey1 _ _ | .rdKey1 _ | .wrKey2 _ _ | .rdKey2 _ | .wrKey3 _ _ | .rdKey3 _ => true
  | .wrIv0 _ _ | .rdIv0 _ | .wrIv1 _ _ | .rdIv1 _ | .wrIv2 _ _ | .rdIv2 _ | .wrIv3 _ _ | .rdIv3 _ => true
  | .wrDin0 _ _ | .rdDin0 _ | .wrDin1 _ _ | .rdDin1 _ | .wrDin2 _ _ | .rdDin2 _ | .wrDin3 _ _ | .rdDin3 _ => true
  | .rdDout0 _ | .wrDout0 _ _ | .rdDout1 _ | .wrDout1 _ _ | .rdDout2 _ | .wrDout2 _ _ | .rdDout3 _
  | .wrDout3 _ _ => true

end Sys2Proof
end

