-- ==== Sys2Proof/Decode.lean ====
section
/-! DEFINITION. The decoder and, after it, the encoder: command words (30_encoding R70 to R77) and host accesses
(42_register_access R170, 10_state R22). Both decoders are total; what has no register or no opcode is rejected by name,
as ILLEGAL, RSVD_OFFSET or BAD_SIZE_OR_ALIGN. -/

namespace Sys2Proof

/-! ### Command words -/

/-- `op = w[3:0]` (R71). -/
def opField (w : Word) : BitVec 4 := w.extractLsb' 0 4

/-- `m = w[15:8]` (R71). -/
def modeField (w : Word) : BitVec 8 := w.extractLsb' 8 8

/-- `n = w[19:16]` (R71). -/
def nbytesField (w : Word) : BitVec 4 := w.extractLsb' 16 4

/-- Which bits must be zero for START, UPDATE and FINAL (R72). -/
def rsvStart : Word := 0xFFFF00F0#32
def rsvUpdate : Word := 0xFFFFFFF0#32
def rsvFinal : Word := 0xFFF0FFF0#32

/-- The decode check (R131): one of three opcodes with its must-be-zero bits clear, else illegal. -/
def decodeWord (w : Word) : Command :=
  if opField w = 1#4 then
    if w &&& rsvStart = 0#32 then .start (modeField w) else .illegal w
  else if opField w = 2#4 then
    if w &&& rsvUpdate = 0#32 then .update else .illegal w
  else if opField w = 3#4 then
    if w &&& rsvFinal = 0#32 then .final (nbytesField w) else .illegal w
  else .illegal w

/-! ### Host accesses -/

/-- A write's instruction or a read's, by the direction of the access (R170). -/
def byDir (dir : Dir) (wr : Word → Instr) (rd : Instr) : Instr :=
  match dir with
  | .write v => wr v
  | .read => rd

/-- The register at a 4-byte offset (R22), written or read by instance `k`'s host; an offset with none is reserved
(R185). -/
def decodeRegister (k : Nat) (off : BitVec 8) (dir : Dir) : Instr :=
  if off = 0x00#8 then byDir dir (.wrCmd k) (.rdCmd k)
  else if off = 0x04#8 then byDir dir (.wrStatus k) (.rdStatus k)
  else if off = 0x08#8 then byDir dir (.wrOutCount k) (.rdOutCount k)
  else if off = 0x10#8 then byDir dir (.wrKey0 k) (.rdKey0 k)
  else if off = 0x14#8 then byDir dir (.wrKey1 k) (.rdKey1 k)
  else if off = 0x18#8 then byDir dir (.wrKey2 k) (.rdKey2 k)
  else if off = 0x1C#8 then byDir dir (.wrKey3 k) (.rdKey3 k)
  else if off = 0x20#8 then byDir dir (.wrIv0 k) (.rdIv0 k)
  else if off = 0x24#8 then byDir dir (.wrIv1 k) (.rdIv1 k)
  else if off = 0x28#8 then byDir dir (.wrIv2 k) (.rdIv2 k)
  else if off = 0x2C#8 then byDir dir (.wrIv3 k) (.rdIv3 k)
  else if off = 0x30#8 then byDir dir (.wrDin0 k) (.rdDin0 k)
  else if off = 0x34#8 then byDir dir (.wrDin1 k) (.rdDin1 k)
  else if off = 0x38#8 then byDir dir (.wrDin2 k) (.rdDin2 k)
  else if off = 0x3C#8 then byDir dir (.wrDin3 k) (.rdDin3 k)
  else if off = 0x40#8 then byDir dir (.wrDout0 k) (.rdDout0 k)
  else if off = 0x44#8 then byDir dir (.wrDout1 k) (.rdDout1 k)
  else if off = 0x48#8 then byDir dir (.wrDout2 k) (.rdDout2 k)
  else if off = 0x4C#8 then byDir dir (.wrDout3 k) (.rdDout3 k)
  else .rsvdOffset k off dir

/-- The order of R170: size and alignment first, then the register or the reserved offset. -/
def decodeAccess (a : Access) : Instr :=
  if badAccess a.off a.size then .badSizeOrAlign a.k a.off a.size a.dir
  else decodeRegister a.k a.off a.dir

/-- Either format. -/
def decode : Encoding → Instr
  | .cmd32 k w => (decodeWord w).toInstr k
  | .bus32 a => decodeAccess a

/-! ### The encoder -/

/-- The words of R77. -/
def startWord (m : BitVec 8) : Word := 0x00000001#32 ||| m.setWidth 32 <<< 8
def updateWord : Word := 0x00000002#32
def finalWord (n : BitVec 4) : Word := 0x00000003#32 ||| n.setWidth 32 <<< 16

/-- The word of a command (R77, R79). -/
def Command.word : Command → Word
  | .start m => startWord m
  | .update => updateWord
  | .final n => finalWord n
  | .illegal w => w

/-- A 4-byte read of offset `off` of instance `k`. -/
def rdAccess (k : Nat) (off : BitVec 8) : Encoding := .bus32 ⟨k, off, 4, .read⟩

/-- A 4-byte write of `v` to offset `off` of instance `k`. -/
def wrAccess (k : Nat) (off : BitVec 8) (v : Word) : Encoding := .bus32 ⟨k, off, 4, .write v⟩

/-- The access or the command word of an instruction: the offsets of R22, the words of R77. -/
def encode : Instr → Encoding
  | .start k m => .cmd32 k (startWord m)
  | .update k => .cmd32 k updateWord
  | .final k n => .cmd32 k (finalWord n)
  | .wrCmd k v => wrAccess k 0x00 v
  | .rdCmd k => rdAccess k 0x00
  | .rdStatus k => rdAccess k 0x04
  | .wrStatus k v => wrAccess k 0x04 v
  | .rdOutCount k => rdAccess k 0x08
  | .wrOutCount k v => wrAccess k 0x08 v
  | .wrKey0 k v => wrAccess k 0x10 v
  | .rdKey0 k => rdAccess k 0x10
  | .wrKey1 k v => wrAccess k 0x14 v
  | .rdKey1 k => rdAccess k 0x14
  | .wrKey2 k v => wrAccess k 0x18 v
  | .rdKey2 k => rdAccess k 0x18
  | .wrKey3 k v => wrAccess k 0x1C v
  | .rdKey3 k => rdAccess k 0x1C
  | .wrIv0 k v => wrAccess k 0x20 v
  | .rdIv0 k => rdAccess k 0x20
  | .wrIv1 k v => wrAccess k 0x24 v
  | .rdIv1 k => rdAccess k 0x24
  | .wrIv2 k v => wrAccess k 0x28 v
  | .rdIv2 k => rdAccess k 0x28
  | .wrIv3 k v => wrAccess k 0x2C v
  | .rdIv3 k => rdAccess k 0x2C
  | .wrDin0 k v => wrAccess k 0x30 v
  | .rdDin0 k => rdAccess k 0x30
  | .wrDin1 k v => wrAccess k 0x34 v
  | .rdDin1 k => rdAccess k 0x34
  | .wrDin2 k v => wrAccess k 0x38 v
  | .rdDin2 k => rdAccess k 0x38
  | .wrDin3 k v => wrAccess k 0x3C v
  | .rdDin3 k => rdAccess k 0x3C
  | .rdDout0 k => rdAccess k 0x40
  | .wrDout0 k v => wrAccess k 0x40 v
  | .rdDout1 k => rdAccess k 0x44
  | .wrDout1 k v => wrAccess k 0x44 v
  | .rdDout2 k => rdAccess k 0x48
  | .wrDout2 k v => wrAccess k 0x48 v
  | .rdDout3 k => rdAccess k 0x4C
  | .wrDout3 k v => wrAccess k 0x4C v
  | .rsvdOffset k off dir => .bus32 ⟨k, off, 4, dir⟩
  | .badSizeOrAlign k off size dir => .bus32 ⟨k, off, size, dir⟩
  | .illegal k w => .cmd32 k w

/-- The host access that carries an encoding: a command word is a 4-byte write of CMD, offset 0x00 (R70). -/
def Encoding.toAccess : Encoding → Access
  | .cmd32 k w => ⟨k, 0x00, 4, .write w⟩
  | .bus32 a => a

/-! ### The opcode table's own numbering -/

/-- A table row as an encoding. A CMD32 row has 32 bits and is the command word itself. A BUS32 row has the 8 bits of the
offset and nothing else: its access is taken to be a 4-byte read of instance 0. Log 12 (DESIGN CHOICE). -/
def tableEncoding (nbits w : Nat) : Encoding :=
  if nbits ≤ 8 then rdAccess 0 (BitVec.ofNat 8 w) else .cmd32 0 (BitVec.ofNat 32 w)

/-- The instruction the decoder reads from a table row's word. -/
def decodeTableWord (nbits w : Nat) : Option Instr := some (decode (tableEncoding nbits w))

end Sys2Proof
end

