-- ==== Sys2Proof/Machine/Operands.lean ====
section
/-! DEFINITION. Operand forms: the packing of 16-byte values into registers (20_memory R52), exclusive-or and byte
selection (00_scope R10), the mode code (30_encoding R75), and the PKCS#7 final block (41_commands R138). -/

namespace Sys2Proof.Machine

/-- Four bytes as a register, the first in bits 7:0 (R52). -/
def packWord (b : Quad Byte) : Word :=
  b.x0.setWidth 32 ||| b.x1.setWidth 32 <<< 8 ||| b.x2.setWidth 32 <<< 16 ||| b.x3.setWidth 32 <<< 24

/-- A register as four bytes: byte `k` is bits `8k+7 : 8k` (R52). -/
def unpackWord (w : Word) : Quad Byte :=
  ⟨w.extractLsb' 0 8, w.extractLsb' 8 8, w.extractLsb' 16 8, w.extractLsb' 24 8⟩

/-- A 16-byte value as its four registers (R52). -/
def packBlock (b : Bytes16) : Quad Word := b.map packWord

/-- Four registers as the 16-byte value they hold (R52). -/
def unpackBlock (q : Quad Word) : Bytes16 := q.map unpackWord

/-- `rep(16, v)` (R10). -/
def repBlock (v : Byte) : Bytes16 := Quad.fill (Quad.fill v)

/-- `0^16` (R10). -/
def zeroBlock : Bytes16 := repBlock 0#8

/-- `a xor b`, byte by byte (R10). -/
def xorBlock (a b : Bytes16) : Bytes16 := Quad.zipWith (Quad.zipWith (· ^^^ ·)) a b

/-- `b[i]` for `i` in 0..15 (R10): byte `i mod 4` of the `i div 4`-th four. -/
def byteAt (b : Bytes16) (i : Nat) : Byte := (b.get (i / 4)).get (i % 4)

/-- The 16-byte value whose byte `i` is `f i`. -/
def blockOf (f : Nat → Byte) : Bytes16 :=
  ⟨⟨f 0, f 1, f 2, f 3⟩, ⟨f 4, f 5, f 6, f 7⟩, ⟨f 8, f 9, f 10, f 11⟩, ⟨f 12, f 13, f 14, f 15⟩⟩

/-- The bytes of a 16-byte value in order (R10). -/
def blockBytes (b : Bytes16) : List Byte := (b.map Quad.toList).toList.flatten

/-- The mode a MODE field selects (R75); none for codes 2 to 255. -/
def modeOfCode (m : BitVec 8) : Option Mode :=
  if m = 0#8 then some .noChaining else if m = 1#8 then some .cbcChaining else none

/-- The code of a mode: its bit in STATUS (R24) and in START's MODE field (R75). -/
def modeCode : Mode → BitVec 8
  | .noChaining => 0#8
  | .cbcChaining => 1#8

/-- `d[0 .. n) ++ rep(16 - n, 16 - n)` for `n` in 0..15: the final block, padded (R138). -/
def padBlock (n : Nat) (d : Bytes16) : Bytes16 :=
  blockOf fun i => if i < n then byteAt d i else BitVec.ofNat 8 (16 - n)

end Sys2Proof.Machine
end

