-- ==== Sys2Proof/Machine/Ops.lean ====
section
/-! DEFINITION. The shared operations: a host access to an instance, read, written, held or answered with a bus error
(42_register_access), and the reporting of an error, which takes the place of an exception (60_exceptions R200). There is
no trap to enter and none to return from (R210). -/

namespace Sys2Proof.Machine

/-- What every meaning answers. -/
abbrev Result := Host.Outcome State Fault Refusal

/-- `raise <Error>(code)` (R11): the code goes to STATUS.ERR and the command ends with no other effect. -/
def Inst.refuse (e : ErrCode) (x : Inst) : Inst := { x with err := e }

/-- The instance of a host access, or the fault when the platform has no such instance. -/
def onInst (k : Nat) (s : State) (f : Inst → Result) : Result :=
  match s.insts[k]? with
  | none => .fault (.noInstance k)
  | some x => f x

/-- The machine with instance `k` replaced. -/
def State.setInst (s : State) (k : Nat) (x : Inst) : State := { s with insts := s.insts.set k x }

/-- The machine with the bus answering `r`. -/
def State.respond (s : State) (r : Response) : State := { s with resp := some r }

/-- A read that is never held (R57): it answers a word and changes nothing. -/
def readInst (k : Nat) (f : Inst → Word) (s : State) : Result :=
  onInst k s fun x => .next (s.respond (.data (f x)))

/-- A write that is never held: it changes its instance and is answered. -/
def writeInst (k : Nat) (f : Inst → Inst) (s : State) : Result :=
  onInst k s fun x => .next ((s.setInst k (f x)).respond .written)

/-- A write that is ignored (R174, R176, R184). -/
def ignoreWrite (k : Nat) (s : State) : Result :=
  onInst k s fun _ => .next (s.respond .written)

/-- `raise BusError` (R185, R186, R207): a response to the host, and no state of the instance changes. -/
def busErrorAt (k : Nat) (s : State) : Result :=
  onInst k s fun _ => .next (s.respond .busError)

/-- `hold` (R11, R171, R183): the access does not complete; it joins those that wait, in delivery order. -/
def State.hold (s : State) (a : Access) : State :=
  { s with waiting := s.waiting ++ [a], resp := some .held }

/-- A write of command word `w` to CMD: held while BUSY = 1, else its issue step `f` (R130, R171). -/
def cmdWrite (k : Nat) (w : Word) (f : Inst → Inst) (s : State) : Result :=
  onInst k s fun x =>
    if x.busy then .next (s.hold ⟨k, 0x00, 4, .write w⟩)
    else .next ((s.setInst k (f x)).respond .written)

/-- A read of a DOUT register at offset `off`: held while BUSY = 1, else its word (R183). -/
def doutRead (k : Nat) (off : BitVec 8) (f : Inst → Word) (s : State) : Result :=
  onInst k s fun x =>
    if x.busy then .next (s.hold ⟨k, off, 4, .read⟩)
    else .next (s.respond (.data (f x)))

/-- The reset of one instance (R230): every register and all hidden state. The model's own counter of draws is kept, so
that a draw after reset is a fresh one (R210, log 3). -/
def Inst.resetEvent (x : Inst) : Inst := { Inst.reset with draws := x.draws }

/-- Instance `k` changed, if there is one. -/
def State.modifyInst (s : State) (k : Nat) (f : Inst → Inst) : State :=
  { s with insts := s.insts.modify k f }

end Sys2Proof.Machine
end

