-- ==== Sys2Proof/Machine/Commands.lean ====
section
/-! DEFINITION. START, UPDATE, FINAL, ILLEGAL and the write of CMD that issues them: the issue step (41_commands R130 to
R133, R135, R137, R138, R141). -/

namespace Sys2Proof.Machine

/-- What START's issue step clears first (R133 effect 1). -/
def Inst.clearOutput (x : Inst) : Inst :=
  { x with outCount := 0#32, dout := packBlock zeroBlock, outValid := false }

/-- An accepted START latches key, IV and mode (R133 effect 3). -/
def Inst.acceptStart (md : Mode) (x : Inst) : Inst :=
  { x with err := .ok, keyL := unpackBlock x.key, chain := unpackBlock x.iv, pendMode := md, pendOp := .start }

/-- START's issue step (R132, R133). -/
def Inst.issueStart (m : BitVec 8) (x : Inst) : Inst :=
  if x.active then x.refuse .sequenceError
  else
    match modeOfCode m with
    | none => x.clearOutput.refuse .unsupportedMode
    | some md => x.clearOutput.acceptStart md

/-- The largest OUT_COUNT from which an UPDATE still leaves room for FINAL (R137). -/
def updateLimit : Word := 0xFFFFFFD0#32

/-- UPDATE's issue step (R132, R135, R137). -/
def Inst.issueUpdate (x : Inst) : Inst :=
  if !x.active then x.refuse .sequenceError
  else if updateLimit < x.outCount then x.refuse .lengthError
  else { x with err := .ok, outValid := false, inL := unpackBlock x.din, pendOp := .update }

/-- FINAL's issue step, with the padding generator (R132, R138). -/
def Inst.issueFinal (n : BitVec 4) (x : Inst) : Inst :=
  if !x.active then x.refuse .sequenceError
  else { x with err := .ok, outValid := false, inL := padBlock n.toNat (unpackBlock x.din), pendOp := .final }

/-- The refusal of an illegal word (R131, R141). -/
def Inst.issueIllegal (x : Inst) : Inst := x.refuse .illegalCmd

/-- `issue(w)` once `w` is decoded (R130, R132). -/
def Inst.issue (c : Command) (x : Inst) : Inst :=
  match c with
  | .start m => x.issueStart m
  | .update => x.issueUpdate
  | .final n => x.issueFinal n
  | .illegal _ => x.issueIllegal

/-- START, issued by a write of its word to CMD (R133). -/
def execStart (k : Nat) (m : BitVec 8) (s : State) : Result := cmdWrite k (startWord m) (Inst.issueStart m) s

/-- UPDATE, issued by a write of its word to CMD (R135). -/
def execUpdate (k : Nat) (s : State) : Result := cmdWrite k updateWord Inst.issueUpdate s

/-- FINAL, issued by a write of its word to CMD (R138). -/
def execFinal (k : Nat) (n : BitVec 4) (s : State) : Result := cmdWrite k (finalWord n) (Inst.issueFinal n) s

/-- A write of an illegal word to CMD (R131, R141). -/
def execIllegal (k : Nat) (w : Word) (s : State) : Result := cmdWrite k w Inst.issueIllegal s

/-- WR CMD (R171): the completing step is the issue step of the word written. -/
def execWrCmd (k : Nat) (v : Word) (s : State) : Result := cmdWrite k v (Inst.issue (decodeWord v)) s

end Sys2Proof.Machine
end

