-- ==== Sys2Proof/Machine/Engine.lean ====
section
/-! DEFINITION. The engine: the completion of the command in flight (41_commands R134, R136, R139, R140, R144). Every
function takes the cipher, so that it can be run with any. -/

namespace Sys2Proof.Machine

/-- The type of `E(key, block)` (R109). -/
abbrev Cipher := Bytes16 → Bytes16 → Bytes16

/-- What the mode feeds the cipher (R144): the block, in CBC exclusive-or the chaining value. -/
def chainIn (md : Mode) (chain b : Bytes16) : Bytes16 :=
  match md with
  | .noChaining => b
  | .cbcChaining => xorBlock b chain

/-- The chaining value after block `c` (R144): in CBC the block, else as it was. -/
def chainOut (md : Mode) (chain c : Bytes16) : Bytes16 :=
  match md with
  | .noChaining => chain
  | .cbcChaining => c

/-- `block_step(B)`, the mode selector and chaining datapath (R144). -/
def Inst.blockStep (E : Cipher) (b : Bytes16) (x : Inst) : Inst :=
  let c := E x.keyL (chainIn x.modeL x.chain b)
  { x with
    chain    := chainOut x.modeL x.chain c
    dout     := packBlock c
    outValid := true
    outCount := x.outCount + 16#32 }

/-- START's completion under the draw `ok` (R134). -/
def Inst.completeStart (ok : Bool) (x : Inst) : Inst :=
  if ok then { x with active := true, modeL := x.pendMode, pendOp := .none, draws := x.draws + 1 }
  else
    { x with
      err := .initError, keyL := zeroBlock, chain := zeroBlock, pendOp := .none, draws := x.draws + 1 }

/-- UPDATE's completion (R136). -/
def Inst.completeUpdate (E : Cipher) (x : Inst) : Inst := { x.blockStep E x.inL with pendOp := .none }

/-- FINAL's completion: the block step, then the session closes and the context is released (R139). -/
def Inst.completeFinal (E : Cipher) (x : Inst) : Inst :=
  { x.blockStep E x.inL with active := false, keyL := zeroBlock, chain := zeroBlock, pendOp := .none }

/-- The engine's step: the completion of PEND_OP, enabled exactly when BUSY = 1 (R140). When nothing is in flight it is
not enabled and nothing changes (log 7). -/
def Inst.complete (E : Cipher) (ok : Bool) (x : Inst) : Inst :=
  match x.pendOp with
  | .none => x
  | .start => x.completeStart ok
  | .update => x.completeUpdate E
  | .final => x.completeFinal E

/-- The engine's step of instance `k`, with the platform's cipher and the draw it takes. -/
def Inst.engine (k : Nat) (x : Inst) : Inst := x.complete Config.cipher (Config.initOk k x.draws)

end Sys2Proof.Machine
end

