-- ==== Sys2Proof/Machine/Bus.lean ====
section
/-! DEFINITION. The bus and the order of moves: which instance an address reaches (20_memory R51), which accesses are held
(42_register_access R171, R183), and whose turn a step is (20_memory R60, 41_commands R140). -/

namespace Sys2Proof.Machine

/-- The instance and the offset a bus address reaches, among `n` instances; none outside every window (R51). -/
def route (n : Nat) (addr : Nat) : Option (Nat × BitVec 8) :=
  if Config.base ≤ addr ∧ (addr - Config.base) / 0x100 < n then
    some ((addr - Config.base) / 0x100, BitVec.ofNat 8 (addr - Config.base))
  else none

/-- An access that is held while BUSY = 1: a 4-byte write of CMD or read of a DOUT register (R171, R183). -/
def holdable (a : Access) : Bool :=
  a.size == 4
    && match a.dir with
       | .write _ => a.off == 0x00#8
       | .read => a.off == 0x40#8 || a.off == 0x44#8 || a.off == 0x48#8 || a.off == 0x4C#8

/-- STATUS.BUSY of instance `k` (no instance is never busy). -/
def State.busyAt (s : State) (k : Nat) : Bool :=
  match s.insts[k]? with
  | none => false
  | some x => x.busy

/-- The access has to wait. -/
def State.blocked (s : State) (a : Access) : Bool := holdable a && s.busyAt a.k

/-- The first access of a list that need not wait, and the list without it. -/
def takeReady (blocked : Access → Bool) : List Access → Option (Access × List Access)
  | [] => none
  | a :: as =>
    if blocked a then (takeReady blocked as).map fun r => (r.1, a :: r.2)
    else some (a, as)

/-- The first busy instance of a list, numbered from `k`. -/
def firstBusy (k : Nat) : List Inst → Option Nat
  | [] => none
  | x :: xs => if x.busy then some k else firstBusy (k + 1) xs

/-- The step's own bookkeeping: no bus response, and the event taken. -/
def State.begin (s : State) (events : List Event) : State := { s with events := events, resp := none }

/-- Whose turn it is. A waiting access that need not wait any longer goes first (R171: "the first step in which
STATUS.BUSY = 0"); else the next event; when there is none, the first busy engine, so that an enabled completion is taken
in the end (R140); else nobody. Log 6, log 7, log 9. -/
def State.turn (s : State) : Turn :=
  match takeReady s.blocked s.waiting with
  | some (a, rest) => .run a { s.begin s.events with waiting := rest }
  | none =>
    match s.events with
    | .access addr size dir :: es =>
      match route s.insts.length addr with
      | none => .pass (s.begin es)
      | some (k, off) => .run ⟨k, off, size, dir⟩ (s.begin es)
    | .complete k :: es => .complete k (s.begin es)
    | .reset k :: es => .reset k (s.begin es)
    | .resetAll :: es => .resetAll (s.begin es)
    | [] =>
      match firstBusy 0 s.insts with
      | some k => .complete k (s.begin [])
      | none => .pass (s.begin [])

/-- The engine of instance `k` moves (R140). -/
def State.engineMoves (s : State) (k : Nat) : State := s.modifyInst k (Inst.engine k)

/-- Instance `k` is reset (R230); accesses that wait go on waiting (R231). -/
def State.resetInst (s : State) (k : Nat) : State := s.modifyInst k Inst.resetEvent

/-- All instances are reset at once (R230). -/
def State.resetInsts (s : State) : State := { s with insts := s.insts.map Inst.resetEvent }

/-- The access put first among those that wait, so that it is run as soon as it need not wait (log 12). -/
def State.deliver (s : State) (a : Access) : State := { s with waiting := a :: s.waiting }

end Sys2Proof.Machine
end

