-- ==== Sys2Proof/Machine/Registers.lean ====
section
/-! DEFINITION. The reads and writes of the register window (42_register_access R172 to R186), but for the write of CMD. -/

namespace Sys2Proof.Machine

/-- RD CMD returns 0 (R172). -/
def execRdCmd (k : Nat) (s : State) : Result := readInst k (fun _ => 0#32) s

/-- RD STATUS (R173). -/
def execRdStatus (k : Nat) (s : State) : Result := readInst k Inst.statusWord s

/-- WR STATUS is ignored (R174). -/
def execWrStatus (k : Nat) (_v : Word) (s : State) : Result := ignoreWrite k s

/-- RD OUT_COUNT (R175). -/
def execRdOutCount (k : Nat) (s : State) : Result := readInst k Inst.outCount s

/-- WR OUT_COUNT is ignored (R176). -/
def execWrOutCount (k : Nat) (_v : Word) (s : State) : Result := ignoreWrite k s

/-- WR KEY0 (R177). -/
def execWrKey0 (k : Nat) (v : Word) (s : State) : Result :=
  writeInst k (fun x => { x with key := { x.key with x0 := v } }) s

/-- RD KEY0 returns 0 (R178). -/
def execRdKey0 (k : Nat) (s : State) : Result := readInst k (fun _ => 0#32) s

/-- WR KEY1 (R177). -/
def execWrKey1 (k : Nat) (v : Word) (s : State) : Result :=
  writeInst k (fun x => { x with key := { x.key with x1 := v } }) s

/-- RD KEY1 returns 0 (R178). -/
def execRdKey1 (k : Nat) (s : State) : Result := readInst k (fun _ => 0#32) s

/-- WR KEY2 (R177). -/
def execWrKey2 (k : Nat) (v : Word) (s : State) : Result :=
  writeInst k (fun x => { x with key := { x.key with x2 := v } }) s

/-- RD KEY2 returns 0 (R178). -/
def execRdKey2 (k : Nat) (s : State) : Result := readInst k (fun _ => 0#32) s

/-- WR KEY3 (R177). -/
def execWrKey3 (k : Nat) (v : Word) (s : State) : Result :=
  writeInst k (fun x => { x with key := { x.key with x3 := v } }) s

/-- RD KEY3 returns 0 (R178). -/
def execRdKey3 (k : Nat) (s : State) : Result := readInst k (fun _ => 0#32) s

/-- WR IV0 (R179). -/
def execWrIv0 (k : Nat) (v : Word) (s : State) : Result :=
  writeInst k (fun x => { x with iv := { x.iv with x0 := v } }) s

/-- RD IV0 (R180). -/
def execRdIv0 (k : Nat) (s : State) : Result := readInst k (fun x => x.iv.x0) s

/-- WR IV1 (R179). -/
def execWrIv1 (k : Nat) (v : Word) (s : State) : Result :=
  writeInst k (fun x => { x with iv := { x.iv with x1 := v } }) s

/-- RD IV1 (R180). -/
def execRdIv1 (k : Nat) (s : State) : Result := readInst k (fun x => x.iv.x1) s

/-- WR IV2 (R179). -/
def execWrIv2 (k : Nat) (v : Word) (s : State) : Result :=
  writeInst k (fun x => { x with iv := { x.iv with x2 := v } }) s

/-- RD IV2 (R180). -/
def execRdIv2 (k : Nat) (s : State) : Result := readInst k (fun x => x.iv.x2) s

/-- WR IV3 (R179). -/
def execWrIv3 (k : Nat) (v : Word) (s : State) : Result :=
  writeInst k (fun x => { x with iv := { x.iv with x3 := v } }) s

/-- RD IV3 (R180). -/
def execRdIv3 (k : Nat) (s : State) : Result := readInst k (fun x => x.iv.x3) s

/-- WR DIN0 (R181). -/
def execWrDin0 (k : Nat) (v : Word) (s : State) : Result :=
  writeInst k (fun x => { x with din := { x.din with x0 := v } }) s

/-- RD DIN0 (R182). -/
def execRdDin0 (k : Nat) (s : State) : Result := readInst k (fun x => x.din.x0) s

/-- WR DIN1 (R181). -/
def execWrDin1 (k : Nat) (v : Word) (s : State) : Result :=
  writeInst k (fun x => { x with din := { x.din with x1 := v } }) s

/-- RD DIN1 (R182). -/
def execRdDin1 (k : Nat) (s : State) : Result := readInst k (fun x => x.din.x1) s

/-- WR DIN2 (R181). -/
def execWrDin2 (k : Nat) (v : Word) (s : State) : Result :=
  writeInst k (fun x => { x with din := { x.din with x2 := v } }) s

/-- RD DIN2 (R182). -/
def execRdDin2 (k : Nat) (s : State) : Result := readInst k (fun x => x.din.x2) s

/-- WR DIN3 (R181). -/
def execWrDin3 (k : Nat) (v : Word) (s : State) : Result :=
  writeInst k (fun x => { x with din := { x.din with x3 := v } }) s

/-- RD DIN3 (R182). -/
def execRdDin3 (k : Nat) (s : State) : Result := readInst k (fun x => x.din.x3) s

/-- RD DOUT0, held while BUSY = 1 (R183). -/
def execRdDout0 (k : Nat) (s : State) : Result := doutRead k 0x40 (fun x => x.dout.x0) s

/-- WR DOUT0 is ignored (R184). -/
def execWrDout0 (k : Nat) (_v : Word) (s : State) : Result := ignoreWrite k s

/-- RD DOUT1, held while BUSY = 1 (R183). -/
def execRdDout1 (k : Nat) (s : State) : Result := doutRead k 0x44 (fun x => x.dout.x1) s

/-- WR DOUT1 is ignored (R184). -/
def execWrDout1 (k : Nat) (_v : Word) (s : State) : Result := ignoreWrite k s

/-- RD DOUT2, held while BUSY = 1 (R183). -/
def execRdDout2 (k : Nat) (s : State) : Result := doutRead k 0x48 (fun x => x.dout.x2) s

/-- WR DOUT2 is ignored (R184). -/
def execWrDout2 (k : Nat) (_v : Word) (s : State) : Result := ignoreWrite k s

/-- RD DOUT3, held while BUSY = 1 (R183). -/
def execRdDout3 (k : Nat) (s : State) : Result := doutRead k 0x4C (fun x => x.dout.x3) s

/-- WR DOUT3 is ignored (R184). -/
def execWrDout3 (k : Nat) (_v : Word) (s : State) : Result := ignoreWrite k s

/-- A 4-byte access to a reserved offset: a bus error (R185). -/
def execRsvdOffset (k : Nat) (_off : BitVec 8) (_dir : Dir) (s : State) : Result := busErrorAt k s

/-- An access of a wrong size or at a misaligned offset: a bus error (R186). -/
def execBadSizeOrAlign (k : Nat) (_off : BitVec 8) (_size : Nat) (_dir : Dir) (s : State) : Result := busErrorAt k s

end Sys2Proof.Machine
end

