-- ==== Sys2Proof/Machine/Dispatch.lean ====
section
/-! DEFINITION. One arm per row of spec/opcode_table.json. -/

namespace Sys2Proof.Machine

def exec (i : Instr) (s : State) : Host.Outcome State Fault Refusal :=
  match i with
  | .start k m => Sys2Proof.Machine.execStart k m s
  | .update k => Sys2Proof.Machine.execUpdate k s
  | .final k n => Sys2Proof.Machine.execFinal k n s
  | .wrCmd k v => Sys2Proof.Machine.execWrCmd k v s
  | .rdCmd k => Sys2Proof.Machine.execRdCmd k s
  | .rdStatus k => Sys2Proof.Machine.execRdStatus k s
  | .wrStatus k v => Sys2Proof.Machine.execWrStatus k v s
  | .rdOutCount k => Sys2Proof.Machine.execRdOutCount k s
  | .wrOutCount k v => Sys2Proof.Machine.execWrOutCount k v s
  | .wrKey0 k v => Sys2Proof.Machine.execWrKey0 k v s
  | .rdKey0 k => Sys2Proof.Machine.execRdKey0 k s
  | .wrKey1 k v => Sys2Proof.Machine.execWrKey1 k v s
  | .rdKey1 k => Sys2Proof.Machine.execRdKey1 k s
  | .wrKey2 k v => Sys2Proof.Machine.execWrKey2 k v s
  | .rdKey2 k => Sys2Proof.Machine.execRdKey2 k s
  | .wrKey3 k v => Sys2Proof.Machine.execWrKey3 k v s
  | .rdKey3 k => Sys2Proof.Machine.execRdKey3 k s
  | .wrIv0 k v => Sys2Proof.Machine.execWrIv0 k v s
  | .rdIv0 k => Sys2Proof.Machine.execRdIv0 k s
  | .wrIv1 k v => Sys2Proof.Machine.execWrIv1 k v s
  | .rdIv1 k => Sys2Proof.Machine.execRdIv1 k s
  | .wrIv2 k v => Sys2Proof.Machine.execWrIv2 k v s
  | .rdIv2 k => Sys2Proof.Machine.execRdIv2 k s
  | .wrIv3 k v => Sys2Proof.Machine.execWrIv3 k v s
  | .rdIv3 k => Sys2Proof.Machine.execRdIv3 k s
  | .wrDin0 k v => Sys2Proof.Machine.execWrDin0 k v s
  | .rdDin0 k => Sys2Proof.Machine.execRdDin0 k s
  | .wrDin1 k v => Sys2Proof.Machine.execWrDin1 k v s
  | .rdDin1 k => Sys2Proof.Machine.execRdDin1 k s
  | .wrDin2 k v => Sys2Proof.Machine.execWrDin2 k v s
  | .rdDin2 k => Sys2Proof.Machine.execRdDin2 k s
  | .wrDin3 k v => Sys2Proof.Machine.execWrDin3 k v s
  | .rdDin3 k => Sys2Proof.Machine.execRdDin3 k s
  | .rdDout0 k => Sys2Proof.Machine.execRdDout0 k s
  | .wrDout0 k v => Sys2Proof.Machine.execWrDout0 k v s
  | .rdDout1 k => Sys2Proof.Machine.execRdDout1 k s
  | .wrDout1 k v => Sys2Proof.Machine.execWrDout1 k v s
  | .rdDout2 k => Sys2Proof.Machine.execRdDout2 k s
  | .wrDout2 k v => Sys2Proof.Machine.execWrDout2 k v s
  | .rdDout3 k => Sys2Proof.Machine.execRdDout3 k s
  | .wrDout3 k v => Sys2Proof.Machine.execWrDout3 k v s
  | .rsvdOffset k off dir => Sys2Proof.Machine.execRsvdOffset k off dir s
  | .badSizeOrAlign k off size dir => Sys2Proof.Machine.execBadSizeOrAlign k off size dir s
  | .illegal k w => Sys2Proof.Machine.execIllegal k w s

end Sys2Proof.Machine
end

