-- ==== Sys2Proof/Machine/Step.lean ====
section
/-! DEFINITION. One step (00_scope R12): a host access, an engine completion, a reset, or nothing. -/

namespace Sys2Proof.Machine

/-- The step of whoever's turn it is. -/
def step (s : State) : Host.Outcome State Fault Refusal :=
  match s.turn with
  | .run a s' => exec (decodeAccess a) s'
  | .complete k s' => .next (s'.engineMoves k)
  | .reset k s' => .next (s'.resetInst k)
  | .resetAll s' => .next s'.resetInsts
  | .pass s' => .next s'

/-- `s` with a table row's instruction delivered, so that the very next step runs it (log 12): a CMD32 row as a 4-byte
write of its word to CMD of instance 0, a BUS32 row as a 4-byte read of its offset of instance 0. -/
def State.withFetchWord (s : State) (nbits w : Nat) : State := s.deliver (tableEncoding nbits w).toAccess

end Sys2Proof.Machine
end

