-- ==== Sys2Proof/Machine/Reference.lean ====
section
/-! DEFINITION. The reference functions of 40_mode_semantics (R100 to R118), which the commands are held to, and the
host's notation of 30_encoding R79 as lists of events, with the canonical session of 41_commands R146. None of it is part
of the hardware. -/

namespace Sys2Proof.Machine

/-! ### Padding and blocks -/

/-- `PadLen(L)` (R101). -/
def padLen (l : Nat) : Nat := 16 - l % 16

/-- `Pad(P) = P ++ rep(p, p)` (R102). The value of the padding bytes is the spec's general knowledge (log 16). -/
def pad (p : List Byte) : List Byte :=
  p ++ List.replicate (padLen p.length) (BitVec.ofNat 8 (padLen p.length))

/-- The full 16-byte blocks of a byte sequence, in order; a shorter rest is dropped (R104). -/
def chunks : List Byte → List Bytes16
  | a0 :: a1 :: a2 :: a3 :: b0 :: b1 :: b2 :: b3 :: c0 :: c1 :: c2 :: c3 :: d0 :: d1 :: d2 :: d3 :: rest =>
    ⟨⟨a0, a1, a2, a3⟩, ⟨b0, b1, b2, b3⟩, ⟨c0, c1, c2, c3⟩, ⟨d0, d1, d2, d3⟩⟩ :: chunks rest
  | _ => []

/-- The bytes of a list of blocks, in order. -/
def joinBlocks (bs : List Bytes16) : List Byte := (bs.map blockBytes).flatten

/-! ### The two modes -/

/-- CBCChaining: `C_i = E(K, B_i xor C_{i-1})` (R106), `prev` being `C_{-1}`. -/
def cbcEncrypt (E : Cipher) (key : Bytes16) : Bytes16 → List Bytes16 → List Bytes16
  | _, [] => []
  | prev, b :: bs => E key (xorBlock b prev) :: cbcEncrypt E key (E key (xorBlock b prev)) bs

/-- The ciphertext blocks of a list of blocks: each block alone in NoChaining (R105), chained in CBCChaining (R106). -/
def encryptBlocks (E : Cipher) (md : Mode) (key iv : Bytes16) (bs : List Bytes16) : List Bytes16 :=
  match md with
  | .noChaining => bs.map (E key)
  | .cbcChaining => cbcEncrypt E key iv bs

/-- `Transform(mode, K, IV, P)` (R107). -/
def transform (E : Cipher) (md : Mode) (key iv : Bytes16) (p : List Byte) : List Byte :=
  joinBlocks (encryptBlocks E md key iv (chunks (pad p)))

/-- `L_MAX` (R9, R137). -/
def lMax : Nat := 2 ^ 32 - 17

/-! ### The reference inverse (validation only) -/

/-- `CipherPerm(E)` with inverse `D` (R109). -/
def CipherPerm (E D : Cipher) : Prop :=
  ∀ key x, D key (E key x) = x ∧ E key (D key x) = x

/-- `Q_i = D(K, C_i) xor C_{i-1}` (R116). -/
def cbcDecrypt (D : Cipher) (key : Bytes16) : Bytes16 → List Bytes16 → List Bytes16
  | _, [] => []
  | prev, c :: cs => xorBlock (D key c) prev :: cbcDecrypt D key c cs

/-- The blocks `Q_i` of R116. -/
def decryptBlocks (D : Cipher) (md : Mode) (key iv : Bytes16) (cs : List Bytes16) : List Bytes16 :=
  match md with
  | .noChaining => cs.map (D key)
  | .cbcChaining => cbcDecrypt D key iv cs

/-- `Unpad(Q)` (R117): none is the padding error. -/
def unpad (q : List Byte) : Option (List Byte) :=
  match q.getLast? with
  | none => none
  | some v =>
    if 1 ≤ v.toNat ∧ v.toNat ≤ 16 ∧ q.drop (q.length - v.toNat) = List.replicate v.toNat v then
      some (q.take (q.length - v.toNat))
    else none

/-- `Dec(mode, K, IV, C)` (R116). -/
def dec (D : Cipher) (md : Mode) (key iv : Bytes16) (c : List Byte) : Option (List Byte) :=
  unpad (joinBlocks (decryptBlocks D md key iv (chunks c)))

/-! ### The host's notation -/

/-- The bus address of offset `off` of instance `k` (R51). -/
def busAddr (k off : Nat) : Nat := Config.base + 0x100 * k + off

/-- `WR` and `RD` (R78): a 4-byte access. -/
def wrEvent (k off : Nat) (v : Word) : Event := .access (busAddr k off) 4 (.write v)
def rdEvent (k off : Nat) : Event := .access (busAddr k off) 4 .read

/-- `LOADKEY`, `LOADIV`, `LOADDIN` (R79): four writes of the packed value, from offset `off`. -/
def loadEvents (k off : Nat) (b : Bytes16) : List Event :=
  [wrEvent k off (packBlock b).x0, wrEvent k (off + 4) (packBlock b).x1, wrEvent k (off + 8) (packBlock b).x2,
    wrEvent k (off + 12) (packBlock b).x3]

/-- `READOUT` (R79). -/
def readOutEvents (k : Nat) : List Event := [rdEvent k 0x40, rdEvent k 0x44, rdEvent k 0x48, rdEvent k 0x4C]

/-- A command written to CMD and its completion. -/
def commandEvents (k : Nat) (c : Command) : List Event := [wrEvent k 0x00 c.word, .complete k]

/-- One full block: `LOADDIN`, `UPDATE`, `READOUT` (R146 item 2). -/
def blockEvents (k : Nat) (b : Bytes16) : List Event :=
  loadEvents k 0x30 b ++ commandEvents k .update ++ readOutEvents k

/-- The canonical session (R146) for the full blocks `bs` and `n` trailing bytes, the first `n` of `d`. -/
def sessionEvents (k : Nat) (md : Mode) (key iv : Bytes16) (bs : List Bytes16) (n : BitVec 4) (d : Bytes16) :
    List Event :=
  loadEvents k 0x10 key ++ loadEvents k 0x20 iv ++ commandEvents k (.start (modeCode md))
    ++ (bs.map (blockEvents k)).flatten
    ++ (loadEvents k 0x30 d ++ commandEvents k (.final n) ++ readOutEvents k)

end Sys2Proof.Machine
end

