-- ==== Sys2Proof/Safety.lean ====
section
/-! DEFINITION. The terms claims use: the invariant of a reachable state, a finished run, what a run lets the host see,
who wrote a field, and the replay of an instance's commands. -/

namespace Sys2Proof.Machine

/-! ### Reachable states -/

/-- What holds of an instance in every reachable state (R36, R37, R40, R41, R145, R209). -/
structure Inst.Inv (x : Inst) : Prop where
  /-- OUT_COUNT counts whole blocks (R145). -/
  aligned : x.outCount.toNat % 16 = 0
  /-- UPDATE and FINAL are in flight only in an open session (R41). -/
  closed : x.active = false → x.pendOp = .none ∨ x.pendOp = .start
  /-- START is in flight only while no session is open, with the output cleared (R41, R133). -/
  starting : x.pendOp = .start → x.active = false ∧ x.outCount = 0#32
  /-- An open session leaves room for FINAL (R145). -/
  room : x.active = true → x.outCount.toNat ≤ 2 ^ 32 - 32
  /-- An UPDATE in flight leaves room for itself and FINAL (R137). -/
  updateRoom : x.pendOp = .update → x.outCount.toNat ≤ 2 ^ 32 - 48
  /-- While a command is in flight its code is OK and DOUT is not valid (R27, R29). -/
  inFlight : x.busy = true → x.err = .ok ∧ x.outValid = false
  /-- With no session open or opening, the context is released (R36, R37). -/
  released : x.active = false → x.pendOp = .none → x.keyL = zeroBlock ∧ x.chain = zeroBlock
  /-- No block counted, no block shown (R209). -/
  noOutput : x.outCount = 0#32 → x.outValid = false ∧ x.dout = packBlock zeroBlock
  /-- A failed START leaves no session and no output (R202, R203, R209). -/
  failedStart : x.err = .unsupportedMode ∨ x.err = .initError → x.active = false ∧ x.outCount = 0#32

/-- What holds of the machine in every reachable state: its instances', and that only accesses that are held for a reason
wait, each for an instance there is (R171, R183). -/
structure State.Inv (s : State) : Prop where
  insts : ∀ x ∈ s.insts, x.Inv
  waiting : ∀ a ∈ s.waiting, holdable a = true ∧ a.k < s.insts.length

/-- What reset leaves of an instance, field by field (R230): STATUS reads 0, every register and all hidden state is 0 and
nothing is in flight. The model's own counter of draws is left out (log 3). -/
structure Inst.Cleared (x : Inst) : Prop where
  status : x.statusWord = 0#32
  outCount : x.outCount = 0#32
  key : x.key = Quad.fill 0#32
  iv : x.iv = Quad.fill 0#32
  din : x.din = Quad.fill 0#32
  dout : x.dout = Quad.fill 0#32
  keyL : x.keyL = zeroBlock
  chain : x.chain = zeroBlock
  inL : x.inL = zeroBlock
  modeL : x.modeL = .noChaining
  pendMode : x.pendMode = .noChaining
  pendOp : x.pendOp = .none

/-! ### Runs -/

/-- The run is over (R147): nothing in flight, nothing waiting, nothing to come. -/
def State.over (s : State) : Prop :=
  s.waiting = [] ∧ s.events = [] ∧ ∀ x ∈ s.insts, x.busy = false

/-- How many steps a run can take at most before it is over. -/
def State.cost (s : State) : Nat :=
  3 * s.events.length + 2 * s.waiting.length + (s.insts.filter Inst.busy).length

/-- The word a step's response carries, if it is a read's. -/
def State.readWord (s : State) : List Word :=
  match s.resp with
  | some (.data w) => [w]
  | _ => []

/-- The words the host reads in `n` steps, in order. -/
def reads : Nat → State → List Word
  | 0, _ => []
  | n + 1, s =>
    match step s with
    | .next t => t.readWord ++ reads n t
    | _ => []

/-! ### Whose step it is -/

/-- The step completes command `op` of instance `k` (R140). -/
def State.completes (s : State) (k : Nat) (op : PendOp) : Prop :=
  ∃ s' x, s.turn = .complete k s' ∧ s.insts[k]? = some x ∧ x.pendOp = op

/-- The step resets instance `k` (R230). -/
def State.resets (s : State) (k : Nat) : Prop :=
  ∃ s', s.turn = .reset k s' ∨ s.turn = .resetAll s'

/-- The command that is in flight once `c` has passed its checks (R41); no illegal word does. -/
def pendOf : Command → PendOp
  | .start _ => .start
  | .update => .update
  | .final _ => .final
  | .illegal _ => .none

/-- A command at its issue step: what it is and the registers it samples (R130, R143). -/
structure Issue where
  cmd : Command
  key : Quad Word
  iv  : Quad Word
  din : Quad Word
deriving DecidableEq, Repr

/-- The command the step issues to instance `k`, if it issues one: a 4-byte write of CMD that is not held (R171). -/
def State.issues? (s : State) (k : Nat) : Option Issue :=
  match s.turn, s.insts[k]? with
  | .run a _, some x =>
    match a.dir with
    | .write v =>
      if a.k = k ∧ a.off = 0x00#8 ∧ a.size = 4 ∧ x.busy = false then some ⟨decodeWord v, x.key, x.iv, x.din⟩
      else none
    | .read => none
  | _, _ => none

/-- The commands issued to instance `k` in `n` steps, in order. -/
def issues (k : Nat) : Nat → State → List Issue
  | 0, _ => []
  | n + 1, s =>
    match step s with
    | .next t => (s.issues? k).toList ++ issues k n t
    | _ => []

/-! ### Replay: the commands one after the other, each completed at once -/

/-- The instance with the registers an issue step samples. -/
def Inst.withInputs (x : Inst) (i : Issue) : Inst := { x with key := i.key, iv := i.iv, din := i.din }

/-- One command issued and completed. -/
def Inst.perform (k : Nat) (x : Inst) (i : Issue) : Inst := ((x.withInputs i).issue i.cmd).engine k

/-- Commands in order, each issued and completed. -/
def Inst.replay (k : Nat) (x : Inst) (is : List Issue) : Inst := is.foldl (Inst.perform k) x

/-- The output blocks after each command of a replay. -/
def Inst.replayOut (k : Nat) : Inst → List Issue → List Bytes16
  | _, [] => []
  | x, i :: is => unpackBlock (x.perform k i).dout :: Inst.replayOut k (x.perform k i) is

/-- The instance without the registers only the host writes. -/
def Inst.forgetInputs (x : Inst) : Inst :=
  { x with key := Quad.fill 0#32, iv := Quad.fill 0#32, din := Quad.fill 0#32 }

/-! ### The like registers by number -/

def rdKeyAt (j k : Nat) : Instr :=
  match j with | 0 => .rdKey0 k | 1 => .rdKey1 k | 2 => .rdKey2 k | _ => .rdKey3 k
def wrKeyAt (j k : Nat) (v : Word) : Instr :=
  match j with | 0 => .wrKey0 k v | 1 => .wrKey1 k v | 2 => .wrKey2 k v | _ => .wrKey3 k v
def rdIvAt (j k : Nat) : Instr :=
  match j with | 0 => .rdIv0 k | 1 => .rdIv1 k | 2 => .rdIv2 k | _ => .rdIv3 k
def wrIvAt (j k : Nat) (v : Word) : Instr :=
  match j with | 0 => .wrIv0 k v | 1 => .wrIv1 k v | 2 => .wrIv2 k v | _ => .wrIv3 k v
def rdDinAt (j k : Nat) : Instr :=
  match j with | 0 => .rdDin0 k | 1 => .rdDin1 k | 2 => .rdDin2 k | _ => .rdDin3 k
def wrDinAt (j k : Nat) (v : Word) : Instr :=
  match j with | 0 => .wrDin0 k v | 1 => .wrDin1 k v | 2 => .wrDin2 k v | _ => .wrDin3 k v
def rdDoutAt (j k : Nat) : Instr :=
  match j with | 0 => .rdDout0 k | 1 => .rdDout1 k | 2 => .rdDout2 k | _ => .rdDout3 k
def wrDoutAt (j k : Nat) (v : Word) : Instr :=
  match j with | 0 => .wrDout0 k v | 1 => .wrDout1 k v | 2 => .wrDout2 k v | _ => .wrDout3 k v

/-- The instance an instruction is for. -/
def instrTarget (i : Instr) : Nat := (encode i).toAccess.k

end Sys2Proof.Machine
end

