-- ==== Sys2Proof/Certificates/Slice0/Obligations.lean ====
section
/-! DEFINITION. The statements for the provers. Each docstring names the rule of spec/ it formalises; OBLIGATIONS.json lists
them. A statement about an instruction gives its next state whole, as a record update of the state before, so that what the
update does not name is unchanged: that is its frame. -/

open Sys2Proof Sys2Proof.Machine

/-! ### Encoding -/

/-- Decoding the encoding of a well-formed instruction gives it back, every operand at every value (30 R70 to R77, 42
R170). -/
def Obligations.DecodeEncodeRoundTrip : Prop :=
  ∀ i : Instr, i.wf = true → decode (encode i) = i

/-- Every command word and every access decodes to a well-formed instruction, which encodes to it again: no bit of a word
or an access is dropped (30 R76: every word is exactly one of START, UPDATE, FINAL, or illegal). -/
def Obligations.EncodeDecodeRoundTrip : Prop :=
  ∀ e : Encoding, (decode e).wf = true ∧ encode (decode e) = e

/-- R77: the legal words are START's, UPDATE's and FINAL's as listed, of START's codes two select a mode and the rest
none, and every other word is illegal. -/
def Obligations.LegalWordsAreThoseListed : Prop :=
  ∀ w : Word,
    (∀ m : BitVec 8, decodeWord w = .start m ↔ w = 0x00000001#32 ||| m.setWidth 32 <<< 8)
    ∧ (∀ m : BitVec 8, modeOfCode m = none ↔ m ≠ 0x00#8 ∧ m ≠ 0x01#8)
    ∧ (decodeWord w = .update ↔ w = 0x00000002#32)
    ∧ (∀ n : BitVec 4, decodeWord w = .final n ↔ w = 0x00000003#32 ||| n.setWidth 32 <<< 16)
    ∧ (decodeWord w = .illegal w ↔
        (∀ m : BitVec 8, w ≠ 0x00000001#32 ||| m.setWidth 32 <<< 8) ∧ w ≠ 0x00000002#32
          ∧ ∀ n : BitVec 4, w ≠ 0x00000003#32 ||| n.setWidth 32 <<< 16)

/-- Words written out from the formats of 30 R70 and the vectors of 95 section 4.1, and accesses from 10 R22. -/
def Obligations.WordsOfTheSpecDecode : Prop :=
  decodeWord 0x00000001#32 = .start 0#8 ∧ decodeWord 0x00000101#32 = .start 1#8
    ∧ decodeWord 0x0000FF01#32 = .start 255#8 ∧ decodeWord 0x00000002#32 = .update
    ∧ decodeWord 0x000F0003#32 = .final 15#4 ∧ decodeWord 0x00000011#32 = .illegal 0x00000011#32
    ∧ decodeWord 0x00010001#32 = .illegal 0x00010001#32 ∧ decodeWord 0x00000102#32 = .illegal 0x00000102#32
    ∧ decodeWord 0x00000000#32 = .illegal 0#32
    ∧ decodeAccess ⟨1, 0x04, 4, .read⟩ = .rdStatus 1
    ∧ decodeAccess ⟨0, 0x1C, 4, .write 0x0F0E0D0C#32⟩ = .wrKey3 0 0x0F0E0D0C#32
    ∧ decodeAccess ⟨0, 0x0C, 4, .read⟩ = .rsvdOffset 0 0x0C .read
    ∧ decodeAccess ⟨0, 0x42, 4, .read⟩ = .badSizeOrAlign 0 0x42 4 .read

/-- The order of 42 R170: a wrong size or a misaligned offset first, then a reserved offset, then the register. -/
def Obligations.AccessDecodeOrder : Prop :=
  ∀ a : Access,
    (a.size ≠ 4 ∨ a.off.toNat % 4 ≠ 0 → decodeAccess a = .badSizeOrAlign a.k a.off a.size a.dir)
    ∧ (a.size = 4 → a.off.toNat % 4 = 0 → a.off.toNat = 0x0C ∨ 0x50 ≤ a.off.toNat →
        decodeAccess a = .rsvdOffset a.k a.off a.dir)
    ∧ (a.size = 4 → a.off.toNat % 4 = 0 → a.off.toNat ≠ 0x0C → a.off.toNat < 0x50 →
        (∀ off size dir, decodeAccess a ≠ .badSizeOrAlign a.k off size dir)
          ∧ (∀ off dir, decodeAccess a ≠ .rsvdOffset a.k off dir) ∧ encode (decodeAccess a) = .bus32 a)

/-! ### The step -/

/-- R51: an address in the window of an instance reaches that instance at its offset; an address outside every window is
not decoded, so an access there leaves every instance and every waiting access as it was and gets no response. -/
def Obligations.AddressReachesItsInstance : Prop :=
  (∀ n i off : Nat, i < n → off < 0x100 →
      route n (Config.base + 0x100 * i + off) = some (i, BitVec.ofNat 8 off))
  ∧ ∀ (s : State) (addr size : Nat) (dir : Dir) (es : List Event),
      (∀ i < s.insts.length, addr < Config.base + 0x100 * i ∨ Config.base + 0x100 * i + 0xFF < addr) →
      (∀ a ∈ s.waiting, s.blocked a = true) → s.events = .access addr size dir :: es →
      step s = .next { s with events := es, resp := none }

/-- An access delivered to an instance is decoded and run by that very step. -/
def Obligations.StepRunsDeliveredAccess : Prop :=
  ∀ (s : State) (k off size : Nat) (dir : Dir) (es : List Event),
    k < s.insts.length → off < 0x100 → (∀ a ∈ s.waiting, s.blocked a = true) →
    s.events = .access (Config.base + 0x100 * k + off) size dir :: es →
    step s = exec (decodeAccess ⟨k, BitVec.ofNat 8 off, size, dir⟩) { s with events := es, resp := none }

/-- A waiting access is run in the first step in which it need not wait, before anything else happens (42 R171, R183). -/
def Obligations.StepRunsHeldAccessFirst : Prop :=
  ∀ (s : State) (pre post : List Access) (a : Access),
    s.waiting = pre ++ a :: post → (∀ b ∈ pre, s.blocked b = true) → s.blocked a = false →
    step s = exec (decodeAccess a) { s with waiting := pre ++ post, resp := none }

/-- An access is held exactly when it writes CMD or reads a DOUT register of a busy instance; then nothing of any
instance changes and it waits behind those that wait. No other access is ever held (42 R171 to R186). -/
def Obligations.HeldExactlyWhileBusy : Prop :=
  ∀ (a : Access) (s t : State), exec (decodeAccess a) s = .next t →
    (t.resp = some .held ↔
      s.busyAt a.k = true
        ∧ ((∃ v, a.dir = .write v ∧ a.size = 4 ∧ a.off = 0x00#8)
          ∨ (a.dir = .read ∧ a.size = 4 ∧ ∃ j < 4, a.off = BitVec.ofNat 8 (0x40 + 4 * j))))
    ∧ (t.resp = some .held → t = { s with waiting := s.waiting ++ [a], resp := some .held })
    ∧ (t.resp ≠ some .held → t.waiting = s.waiting)

/-! ### Reset -/

/-- The state after reset: at least one instance, each of them cleared (70 R230, 60 R214). That nothing is delivered or to
come is the model's (log 13). -/
def Obligations.ResetStateIsZero : Prop :=
  1 ≤ State.reset.insts.length ∧ (∀ x ∈ State.reset.insts, x.Cleared)
    ∧ State.reset.waiting = [] ∧ State.reset.events = []

/-- R230: a reset of one instance or of all sets, in one step, every piece of state of those it resets to the value of
the table, whatever was open or in flight; it touches no other instance and no waiting access. -/
def Obligations.ResetEventClearsInstance : Prop :=
  ∀ (s : State) (k : Nat) (x : Inst) (es : List Event),
    s.insts[k]? = some x → (∀ a ∈ s.waiting, s.blocked a = true) →
    (s.events = .reset k :: es →
      ∃ y, step s = .next { s with insts := s.insts.set k y, events := es, resp := none } ∧ y.Cleared)
    ∧ (s.events = .resetAll :: es →
      ∃ t, step s = .next t ∧ t.waiting = s.waiting ∧ t.events = es ∧ t.insts.length = s.insts.length
        ∧ ∀ y ∈ t.insts, y.Cleared)

/-- The first of the accesses held when a reset of its instance arrives completes in the next step, against the reset
state `y`: a write of CMD is issued, UPDATE and FINAL being refused with SEQUENCE_ERROR and START running normally; a DOUT
read returns 0 (70 R231, 42 R171 and R183, 20 R60). That of several held accesses the first delivered goes first, and
before any event, is the model's (log 5). A reset of all instances, and the accesses held behind the first, are not stated
here: they follow from ResetEventClearsInstance with StepRunsHeldAccessFirst. -/
def Obligations.HeldAccessMeetsResetState : Prop :=
  ∀ (s : State) (a : Access) (rest : List Access) (x : Inst) (es : List Event),
    s.insts[a.k]? = some x → s.waiting = a :: rest → (∀ b ∈ s.waiting, s.blocked b = true) →
    s.events = .reset a.k :: es →
    ∃ (t u : State) (y z : Inst), step s = .next t ∧ t.waiting = s.waiting ∧ t.insts = s.insts.set a.k y ∧ y.Cleared
      ∧ step t = .next u ∧ u.waiting = rest ∧ u.events = es ∧ u.insts = s.insts.set a.k z
      ∧ (a.dir = .read → u.resp = some (.data 0#32) ∧ z = y)
      ∧ ∀ v, a.dir = .write v → u.resp = some .written ∧ z = y.issue (decodeWord v)
        ∧ (decodeWord v = .update ∨ (∃ n, decodeWord v = .final n) → z = { y with err := .sequenceError })
        ∧ ∀ md, decodeWord v = .start (modeCode md) → z = { y with pendMode := md, pendOp := .start }

/-- The state after reset meets the invariant. -/
def Obligations.ResetMeetsInvariant : Prop := State.reset.Inv

/-! ### Invariants -/

/-- Every step keeps the invariant (10 R40, R41; 41 R145; 60 R209), from every state that meets it. -/
def Obligations.StepKeepsInvariant : Prop :=
  ∀ s t : State, s.Inv → step s = .next t → t.Inv

/-- R145: OUT_COUNT never wraps and keeps its bounds, after any number of steps from any state that meets the
invariant. -/
def Obligations.OutCountNeverWraps : Prop :=
  ∀ (s t : State) (n : Nat) (x : Inst), s.Inv → Host.Core.run core n s = .next t → x ∈ t.insts →
    x.outCount.toNat % 16 = 0
    ∧ (x.active = true → x.pendOp ≠ .final → x.outCount.toNat ≤ 2 ^ 32 - 32)
    ∧ x.outCount.toNat ≤ 2 ^ 32 - 16
    ∧ (x.pendOp = .update ∨ x.pendOp = .final → (x.outCount + 16#32).toNat = x.outCount.toNat + 16)

/-- R41: (ACTIVE, PEND_OP) of an instance moves by the transitions of the table, each at the event the table gives it, and
by no others; the checks of a command have passed exactly when its code is OK (10 R29). START's draw is a free value (log 3).
(1, START) is not reached. -/
def Obligations.ControlMovesByTheTable : Prop :=
  ∀ (s t : State) (k : Nat) (x y : Inst), s.Inv → step s = .next t → s.insts[k]? = some x → t.insts[k]? = some y →
    (∀ i, s.issues? k = some i →
      x.pendOp = .none ∧ y.active = x.active
        ∧ (if y.err = .ok then y.pendOp = pendOf i.cmd ∧ (x.active = false ↔ ∃ m, i.cmd = .start m)
          else y.pendOp = .none))
    ∧ (s.completes k .start →
      x.active = false ∧ y.pendOp = .none
        ∧ (y.active = true ↔ Config.initMayFail = false ∨ Config.initDraw k x.draws = true))
    ∧ (s.completes k .update → x.active = true ∧ y.active = true ∧ y.pendOp = .none)
    ∧ (s.completes k .final → x.active = true ∧ y.active = false ∧ y.pendOp = .none)
    ∧ (s.resets k → y.active = false ∧ y.pendOp = .none)
    ∧ (s.issues? k = none → ¬ s.completes k .start → ¬ s.completes k .update → ¬ s.completes k .final → ¬ s.resets k →
      y.active = x.active ∧ y.pendOp = x.pendOp)
    ∧ ¬ (y.active = true ∧ y.pendOp = .start)

/-! ### Commands: the issue step -/

/-- START with a mode of the mode set, while no session is open and nothing is in flight (41 R133 effects 1 and 3). -/
def Obligations.StartLatchesKeyIvAndMode : Prop :=
  ∀ (s : State) (k : Nat) (x : Inst) (md : Mode),
    s.insts[k]? = some x → x.busy = false → x.active = false →
    exec (.start k (modeCode md)) s = .next
      { s with
        insts := s.insts.set k
          { x with
            outCount := 0#32, dout := Quad.fill 0#32, outValid := false, err := .ok,
            keyL := unpackBlock x.key, chain := unpackBlock x.iv, pendMode := md, pendOp := .start }
        resp := some .written }

/-- R202: a START that passes the decode and sequence checks with a mode code of 0x02..0xFF writes ERR 1, clears the
output and does nothing else. -/
def Obligations.StartRejectsUnknownMode : Prop :=
  ∀ (s : State) (k : Nat) (x : Inst) (m : BitVec 8),
    s.insts[k]? = some x → x.busy = false → x.active = false → 2 ≤ m.toNat →
    exec (.start k m) s = .next
      { s with
        insts := s.insts.set k
          { x with outCount := 0#32, dout := Quad.fill 0#32, outValid := false, err := .unsupportedMode }
        resp := some .written }

/-- R204: START while a session is open, and UPDATE or FINAL while none is, do nothing but write ERR 3. -/
def Obligations.OutOfSequenceOnlyWritesErr : Prop :=
  ∀ (s : State) (k : Nat) (x : Inst), s.insts[k]? = some x → x.busy = false →
    (x.active = true → ∀ m : BitVec 8, exec (.start k m) s = .next
      { s with insts := s.insts.set k { x with err := .sequenceError }, resp := some .written })
    ∧ (x.active = false →
      exec (.update k) s = .next
        { s with insts := s.insts.set k { x with err := .sequenceError }, resp := some .written }
      ∧ ∀ n : BitVec 4, exec (.final k n) s = .next
        { s with insts := s.insts.set k { x with err := .sequenceError }, resp := some .written })

/-- UPDATE in an open session with room for it and FINAL latches DIN (41 R135, R137). -/
def Obligations.UpdateLatchesDin : Prop :=
  ∀ (s : State) (k : Nat) (x : Inst),
    s.insts[k]? = some x → x.busy = false → x.active = true → x.outCount.toNat ≤ 2 ^ 32 - 48 →
    exec (.update k) s = .next
      { s with
        insts := s.insts.set k
          { x with err := .ok, outValid := false, inL := unpackBlock x.din, pendOp := .update }
        resp := some .written }

/-- R206: an UPDATE that would leave no room for FINAL does nothing but write ERR 5; the session stays open. -/
def Obligations.UpdateRefusedWithoutRoom : Prop :=
  ∀ (s : State) (k : Nat) (x : Inst),
    s.insts[k]? = some x → x.busy = false → x.active = true → 2 ^ 32 - 48 < x.outCount.toNat →
    exec (.update k) s = .next
      { s with insts := s.insts.set k { x with err := .lengthError }, resp := some .written }

/-- FINAL in an open session latches the padded block: the first `n` bytes of DIN, then `16 - n` bytes of value `16 - n`
(41 R138). The padding value is the spec's general knowledge (log 16). -/
def Obligations.FinalLatchesPaddedBlock : Prop :=
  ∀ (s : State) (k : Nat) (x : Inst) (n : BitVec 4),
    s.insts[k]? = some x → x.busy = false → x.active = true →
    ∃ b : Bytes16,
      exec (.final k n) s = .next
        { s with
          insts := s.insts.set k { x with err := .ok, outValid := false, inL := b, pendOp := .final }
          resp := some .written }
      ∧ blockBytes b = (blockBytes (unpackBlock x.din)).take n.toNat
          ++ List.replicate (16 - n.toNat) (BitVec.ofNat 8 (16 - n.toNat))

/-- R141: a write of a word with a reserved opcode gives ERR 4 with no other change; so does every illegal word (R205). -/
def Obligations.IllegalWordOnlyWritesErr : Prop :=
  ∀ (s : State) (k : Nat) (x : Inst) (w : Word), s.insts[k]? = some x → x.busy = false →
    exec (.illegal k w) s = .next
      { s with insts := s.insts.set k { x with err := .illegalCmd }, resp := some .written }
    ∧ (opField w = 0#4 ∨ 4 ≤ (opField w).toNat → exec (.wrCmd k w) s = exec (.illegal k w) s)
    ∧ (legalWord w = false → exec (.wrCmd k w) s = exec (.illegal k w) s)

/-- A write of CMD runs the command its word decodes to, held or not, for every word (41 R130, 42 R171). -/
def Obligations.WrCmdRunsItsCommand : Prop :=
  ∀ (s : State) (k : Nat) (v : Word), exec (.wrCmd k v) s = exec (decode (.cmd32 k v)) s

/-- A completed write of CMD reports exactly one code, the first that applies in the order of 60 R208 (the order of issue;
INIT_ERROR comes at completion), is accepted exactly when the code is OK, and when refused as illegal, out of sequence or
for its length changes nothing but ERR. -/
def Obligations.WrCmdReportsFirstError : Prop :=
  ∀ (s : State) (k : Nat) (x : Inst) (v : Word), s.insts[k]? = some x → x.busy = false →
    ∃ y, exec (.wrCmd k v) s = .next { s with insts := s.insts.set k y, resp := some .written }
      ∧ y.err =
        (if legalWord v = false then .illegalCmd
         else if (opField v = 1#4 ↔ x.active = true) then .sequenceError
         else if opField v = 1#4 ∧ 2 ≤ (modeField v).toNat then .unsupportedMode
         else if opField v = 2#4 ∧ 2 ^ 32 - 48 < x.outCount.toNat then .lengthError
         else .ok)
      ∧ (y.busy = true ↔ y.err = .ok)
      ∧ (y.err = .illegalCmd ∨ y.err = .sequenceError ∨ y.err = .lengthError → y = { x with err := y.err })

/-- Every command written to CMD of a busy instance is held: it waits and nothing else happens (41 R130). -/
def Obligations.CommandHeldWhileBusy : Prop :=
  ∀ (s : State) (k : Nat) (x : Inst) (c : Command), s.insts[k]? = some x → x.busy = true →
    exec (c.toInstr k) s = .next
      { s with waiting := s.waiting ++ [⟨k, 0x00, 4, .write c.word⟩], resp := some .held }

/-! ### Commands: the completion step -/

/-- START's completion under either draw (41 R134). -/
def Obligations.StartCompletes : Prop :=
  ∀ (s : State) (k : Nat) (x : Inst) (es : List Event),
    s.insts[k]? = some x → x.pendOp = .start → (∀ a ∈ s.waiting, s.blocked a = true) →
    s.events = .complete k :: es →
    step s = .next
      { s with
        insts := s.insts.set k
          (if Config.initMayFail = false ∨ Config.initDraw k x.draws = true then
            { x with active := true, modeL := x.pendMode, pendOp := .none, draws := x.draws + 1 }
          else
            { x with
              err := .initError, keyL := zeroBlock, chain := zeroBlock, pendOp := .none, draws := x.draws + 1 })
        events := es
        resp := none }

/-- UPDATE's completion: the block step of R144 and nothing else (41 R136). -/
def Obligations.UpdateCompletes : Prop :=
  ∀ (s : State) (k : Nat) (x : Inst) (es : List Event),
    s.insts[k]? = some x → x.pendOp = .update → (∀ a ∈ s.waiting, s.blocked a = true) →
    s.events = .complete k :: es →
    ∃ c : Bytes16,
      c = Config.cipher x.keyL (if x.modeL = .cbcChaining then xorBlock x.inL x.chain else x.inL)
      ∧ step s = .next
        { s with
          insts := s.insts.set k
            { x with
              chain := if x.modeL = .cbcChaining then c else x.chain
              dout := packBlock c, outValid := true, outCount := x.outCount + 16#32, pendOp := .none }
          events := es
          resp := none }

/-- FINAL's completion: the block step of R144, then the session closes and the context is released (41 R139). -/
def Obligations.FinalCompletes : Prop :=
  ∀ (s : State) (k : Nat) (x : Inst) (es : List Event),
    s.insts[k]? = some x → x.pendOp = .final → (∀ a ∈ s.waiting, s.blocked a = true) →
    s.events = .complete k :: es →
    ∃ c : Bytes16,
      c = Config.cipher x.keyL (if x.modeL = .cbcChaining then xorBlock x.inL x.chain else x.inL)
      ∧ step s = .next
        { s with
          insts := s.insts.set k
            { x with
              chain := zeroBlock, keyL := zeroBlock, active := false
              dout := packBlock c, outValid := true, outCount := x.outCount + 16#32, pendOp := .none }
          events := es
          resp := none }

/-- Every run ends: whatever the host and the platform still send, after a bounded number of steps nothing is in flight,
nothing waits and nothing is to come, so every enabled completion has been taken (41 R140, 60 R216). The bound is the
model's, of a finite list of events (log 6). -/
def Obligations.EveryRunEnds : Prop :=
  ∀ s : State, (∀ a ∈ s.waiting, a.k < s.insts.length) →
    ∃ t, Host.Core.run core s.cost s = .next t ∧ t.over

/-! ### Register access -/

/-- R173: a read of STATUS returns its fields, bits 31:8 being 0, is not held and changes nothing. -/
def Obligations.ReadStatusReturnsFields : Prop :=
  ∀ (s : State) (k : Nat) (x : Inst), s.insts[k]? = some x →
    ∃ w : Word, exec (.rdStatus k) s = .next { s with resp := some (.data w) }
      ∧ w.toNat = (errCode x.err).toNat * 16 + (modeFlag x.modeL).toNat * 8 + x.outValid.toNat * 4
          + x.active.toNat * 2 + x.busy.toNat
      ∧ (x.busy = true ↔ x.pendOp ≠ .none) ∧ w.extractLsb' 8 24 = 0#24

/-- R172 and R175: a read of CMD returns 0, one of OUT_COUNT the counter; neither is held or changes anything. -/
def Obligations.ReadCmdAndOutCount : Prop :=
  ∀ (s : State) (k : Nat) (x : Inst), s.insts[k]? = some x →
    exec (.rdCmd k) s = .next { s with resp := some (.data 0#32) }
    ∧ exec (.rdOutCount k) s = .next { s with resp := some (.data x.outCount) }

/-- R177: a write of KEYj, also while BUSY or in an open session, sets key bytes 4j to 4j+3 to the word's bytes and
changes nothing else; KEY_L is not touched. -/
def Obligations.WriteKeySetsItsBytes : Prop :=
  ∀ (s : State) (k j : Nat) (x : Inst) (v : Word), s.insts[k]? = some x → j < 4 →
    ∃ q : Quad Word,
      exec (wrKeyAt j k v) s = .next { s with insts := s.insts.set k { x with key := q }, resp := some .written }
      ∧ q.get j = v
      ∧ ∀ i < 16, byteAt (unpackBlock q) i
          = if i / 4 = j then v.extractLsb' (8 * (i % 4)) 8 else byteAt (unpackBlock x.key) i

/-- A read of KEYj returns 0, is not held and changes nothing: the key cannot be read back (42 R178). -/
def Obligations.ReadKeyReturnsZero : Prop :=
  ∀ (s : State) (k j : Nat) (x : Inst), s.insts[k]? = some x → j < 4 →
    exec (rdKeyAt j k) s = .next { s with resp := some (.data 0#32) }

/-- Writes of IVj and DINj store the word, also while BUSY; a read after it returns it, whatever CHAIN and IN_L hold (42
R179 to R182). -/
def Obligations.IvAndDinReadBack : Prop :=
  ∀ (s : State) (k j : Nat) (x : Inst) (v : Word), s.insts[k]? = some x → j < 4 →
    exec (rdIvAt j k) s = .next { s with resp := some (.data (x.iv.get j)) }
    ∧ exec (rdDinAt j k) s = .next { s with resp := some (.data (x.din.get j)) }
    ∧ (∃ (q : Quad Word) (t : State),
        exec (wrIvAt j k v) s = .next t
        ∧ t = { s with insts := s.insts.set k { x with iv := q }, resp := some .written }
        ∧ (∀ i < 4, q.get i = if i = j then v else x.iv.get i)
        ∧ exec (rdIvAt j k) t = .next { t with resp := some (.data v) })
    ∧ (∃ (q : Quad Word) (t : State),
        exec (wrDinAt j k v) s = .next t
        ∧ t = { s with insts := s.insts.set k { x with din := q }, resp := some .written }
        ∧ (∀ i < 4, q.get i = if i = j then v else x.din.get i)
        ∧ exec (rdDinAt j k) t = .next { t with resp := some (.data v) })

/-- R174, R176, R184: writes of STATUS, OUT_COUNT and DOUTj are ignored, not held, and no bus error. -/
def Obligations.ReadOnlyRegistersIgnoreWrites : Prop :=
  ∀ (s : State) (k j : Nat) (x : Inst) (v : Word), s.insts[k]? = some x → j < 4 →
    exec (.wrStatus k v) s = .next { s with resp := some .written }
    ∧ exec (.wrOutCount k v) s = .next { s with resp := some .written }
    ∧ exec (wrDoutAt j k v) s = .next { s with resp := some .written }

/-- A read of DOUTj while BUSY = 0 returns the four bytes of the block from byte 4j on and changes nothing, OUT_VALID
included; while BUSY = 1 it is held (42 R183, 20 R52). -/
def Obligations.ReadDoutReturnsItsBytes : Prop :=
  ∀ (s : State) (k j : Nat) (x : Inst), s.insts[k]? = some x → j < 4 →
    (x.busy = false →
      ∃ w : Word, exec (rdDoutAt j k) s = .next { s with resp := some (.data w) }
        ∧ ∀ i < 4, w.extractLsb' (8 * i) 8 = byteAt (unpackBlock x.dout) (4 * j + i))
    ∧ (x.busy = true →
      exec (rdDoutAt j k) s = .next
        { s with waiting := s.waiting ++ [⟨k, BitVec.ofNat 8 (0x40 + 4 * j), 4, .read⟩], resp := some .held })

/-- A DOUT read sent while an UPDATE or FINAL is in flight is held over its completion and then returns a word of the new
block (42 R183, 95 V-REG-9). -/
def Obligations.HeldDoutReadReturnsNewBlock : Prop :=
  ∀ (s : State) (k j : Nat) (x : Inst) (es : List Event),
    s.insts[k]? = some x → x.pendOp = .update ∨ x.pendOp = .final → j < 4 → s.waiting = [] →
    s.events = rdEvent k (0x40 + 4 * j) :: .complete k :: es →
    ∃ t, Host.Core.run core 3 s = .next t ∧ t.waiting = [] ∧ t.events = es
      ∧ t.resp = some (.data ((packBlock (Config.cipher x.keyL
          (if x.modeL = .cbcChaining then xorBlock x.inL x.chain else x.inL))).get j))

/-- R185 and R186: an access to a reserved offset, of a wrong size or misaligned, completes with a bus error whatever the
instance is doing, and changes nothing. -/
def Obligations.BusErrorChangesNothing : Prop :=
  ∀ (s : State) (k size : Nat) (off : BitVec 8) (dir : Dir) (x : Inst), s.insts[k]? = some x →
    exec (.rsvdOffset k off dir) s = .next { s with resp := some .busError }
    ∧ exec (.badSizeOrAlign k off size dir) s = .next { s with resp := some .busError }
    ∧ (size ≠ 4 ∨ off.toNat % 4 ≠ 0 ∨ off.toNat = 0x0C ∨ 0x50 ≤ off.toNat →
        exec (decodeAccess ⟨k, off, size, dir⟩) s = .next { s with resp := some .busError })

/-! ### The whole machine -/

/-- Only a host write of the register itself changes a word of KEY, IV or DIN: no other instruction does, and no engine
does (41 R143). -/
def Obligations.OnlyHostWritesInputs : Prop :=
  (∀ (i : Instr) (s t : State) (k : Nat) (x y : Inst),
    exec i s = .next t → s.insts[k]? = some x → t.insts[k]? = some y →
      (∀ j < 4, y.key.get j ≠ x.key.get j → ∃ v, i = wrKeyAt j k v ∧ y.key.get j = v)
      ∧ (∀ j < 4, y.iv.get j ≠ x.iv.get j → ∃ v, i = wrIvAt j k v ∧ y.iv.get j = v)
      ∧ (∀ j < 4, y.din.get j ≠ x.din.get j → ∃ v, i = wrDinAt j k v ∧ y.din.get j = v))
  ∧ ∀ (k : Nat) (x : Inst), (x.engine k).key = x.key ∧ (x.engine k).iv = x.iv ∧ (x.engine k).din = x.din

/-- ACTIVE is set only by a successful START completion and cleared only by FINAL's completion or reset; BUSY is set only
by an issue step and cleared only by a completion or reset; MODE is written only by a successful START completion or
reset, with PEND_MODE (10 R25, R26, R28). START's draw is a free value (log 3). -/
def Obligations.SessionStateWriters : Prop :=
  ∀ (s t : State) (k : Nat) (x y : Inst), step s = .next t → s.insts[k]? = some x → t.insts[k]? = some y →
    (x.active = false → y.active = true → s.completes k .start ∧ Config.initOk k x.draws = true)
    ∧ (x.active = true → y.active = false → s.completes k .final ∨ s.resets k)
    ∧ (x.busy = false → y.busy = true → (s.issues? k).isSome = true)
    ∧ (x.busy = true → y.busy = false → s.completes k x.pendOp ∨ s.resets k)
    ∧ (y.modeL ≠ x.modeL → s.resets k
        ∨ (s.completes k .start ∧ Config.initOk k x.draws = true ∧ y.modeL = x.pendMode))

/-- OUT_COUNT, DOUT and OUT_VALID are written only by a START that passes the decode and sequence checks, which clears
them, by a completion of UPDATE or FINAL, which adds 16, stores the new block and sets OUT_VALID, by reset, and OUT_VALID
also by an accepted UPDATE or FINAL, which clears it (10 R27, R31, R35). -/
def Obligations.OutputWriters : Prop :=
  ∀ (s t : State) (k : Nat) (x y : Inst), step s = .next t → s.insts[k]? = some x → t.insts[k]? = some y →
    (y.outCount = x.outCount ∧ y.dout = x.dout ∧ y.outValid = x.outValid)
    ∨ (y.outCount = 0#32 ∧ y.dout = Quad.fill 0#32 ∧ y.outValid = false
        ∧ (s.resets k ∨ x.active = false ∧ ∃ i m, s.issues? k = some i ∧ i.cmd = .start m))
    ∨ (y.outCount = x.outCount ∧ y.dout = x.dout ∧ y.outValid = false ∧ x.active = true ∧ y.err = .ok
        ∧ ∃ i, s.issues? k = some i ∧ (i.cmd = .update ∨ ∃ n, i.cmd = .final n))
    ∨ (y.outCount = x.outCount + 16#32 ∧ y.outValid = true
        ∧ y.dout = packBlock (Config.cipher x.keyL
            (if x.modeL = .cbcChaining then xorBlock x.inL x.chain else x.inL))
        ∧ (s.completes k .update ∨ s.completes k .final))

/-- STATUS.ERR is written only by issued commands, which always write it, by a failed START completion, which writes 2,
and by reset (10 R29). START's draw is a free value (log 3). -/
def Obligations.ErrWriters : Prop :=
  ∀ (s t : State) (k : Nat) (x y : Inst), step s = .next t → s.insts[k]? = some x → t.insts[k]? = some y →
    (y.err ≠ x.err →
      (s.issues? k).isSome = true ∨ s.resets k
        ∨ (s.completes k .start ∧ Config.initOk k x.draws = false ∧ y.err = .initError))
    ∧ (∀ i, s.issues? k = some i → x.busy = false ∧ y = x.issue i.cmd ∧ (y.busy = true ↔ y.err = .ok))

/-- The cipher context: KEY_L and IN_L are written only at issue steps, KEY_L also cleared when START fails and when FINAL
completes; CHAIN is written at START's issue and by the block steps of a CBC session, and cleared likewise (10 R36 to
R38). -/
def Obligations.ContextWriters : Prop :=
  ∀ (s t : State) (k : Nat) (x y : Inst), step s = .next t → s.insts[k]? = some x → t.insts[k]? = some y →
    ¬ s.resets k →
    (y.keyL ≠ x.keyL →
      (y.keyL = unpackBlock x.key ∧ ∃ i m, s.issues? k = some i ∧ i.cmd = .start m)
      ∨ (y.keyL = zeroBlock ∧ (s.completes k .final ∨ s.completes k .start ∧ y.err = .initError)))
    ∧ (y.chain ≠ x.chain →
      (y.chain = unpackBlock x.iv ∧ ∃ i m, s.issues? k = some i ∧ i.cmd = .start m)
      ∨ (y.chain = zeroBlock ∧ (s.completes k .final ∨ s.completes k .start ∧ y.err = .initError))
      ∨ (x.modeL = .cbcChaining ∧ packBlock y.chain = y.dout ∧ s.completes k .update))
    ∧ (y.inL ≠ x.inL →
      ∃ i, s.issues? k = some i
        ∧ (i.cmd = .update ∧ y.inL = unpackBlock x.din
          ∨ ∃ n, i.cmd = .final n ∧ y.inL = padBlock n.toNat (unpackBlock x.din)))

/-- R209: no error puts a block into DOUT, sets OUT_VALID or counts a block; UNSUPPORTED_MODE and INIT_ERROR leave no
output, the other three leave the output as it was. -/
def Obligations.NoPartialOutput : Prop :=
  ∀ (s t : State) (k : Nat) (x y : Inst), s.Inv → step s = .next t → s.insts[k]? = some x → t.insts[k]? = some y →
    (s.issues? k).isSome = true ∨ s.completes k .start → y.err ≠ .ok →
    (y.err = .unsupportedMode ∨ y.err = .initError →
      y.outCount = 0#32 ∧ y.outValid = false ∧ y.dout = Quad.fill 0#32 ∧ y.active = false)
    ∧ (y.err = .sequenceError ∨ y.err = .illegalCmd ∨ y.err = .lengthError →
      y.outCount = x.outCount ∧ y.outValid = x.outValid ∧ y.dout = x.dout ∧ y.active = x.active)

/-- R64: an instruction for an instance depends on that instance alone and changes that instance alone: in any two states
that agree on it, the response and the instance after are the same, and every other instance is as it was. An engine's
step and a reset of one instance likewise. -/
def Obligations.InstancesShareNothing : Prop :=
  (∀ (i : Instr) (s t s' : State),
    s.insts[instrTarget i]? = t.insts[instrTarget i]? → exec i s = .next s' →
    (∀ j, j ≠ instrTarget i → s'.insts[j]? = s.insts[j]?)
    ∧ ∃ t', exec i t = .next t' ∧ s'.insts[instrTarget i]? = t'.insts[instrTarget i]? ∧ s'.resp = t'.resp)
  ∧ ∀ (s t : State) (k j : Nat), s.insts[k]? = t.insts[k]? →
    (s.engineMoves k).insts[k]? = (t.engineMoves k).insts[k]?
    ∧ (s.resetInst k).insts[k]? = (t.resetInst k).insts[k]?
    ∧ (j ≠ k → (s.engineMoves k).insts[j]? = s.insts[j]? ∧ (s.resetInst k).insts[j]? = s.insts[j]?)

/-- No access tells the host anything of KEY or of the hidden state: the response to any instruction is the same whatever
KEY, KEY_L, CHAIN, IN_L and PEND_MODE hold (42 R178, R180; 10 section 4). -/
def Obligations.SecretsNotReadable : Prop :=
  ∀ (i : Instr) (s s' : State) (k : Nat) (x : Inst) (key : Quad Word) (keyL chain inL : Bytes16) (md : Mode),
    s.insts[k]? = some x → exec i s = .next s' →
    ∃ t', exec i (s.setInst k
        { x with key := key, keyL := keyL, chain := chain, inL := inL, pendMode := md }) = .next t'
      ∧ t'.resp = s'.resp

/-! ### Sessions -/

/-- Whatever the timing of completions and whatever else the host does, an instance comes to the state that its commands
give when they are issued one after the other, each with the KEY, IV and DIN of its own issue step, and each completed at
once (41 R148, and with it R142 and R143). That both take the same START draws, R148's premise, is built in by the model
(log 3): a draw is fixed by its instance and by the counter `draws`, which is part of the state compared. Runs that reset
the instance are left out. -/
def Obligations.TimingDoesNotMatter : Prop :=
  ∀ (k n : Nat) (s t : State) (x y : Inst),
    (∀ e ∈ s.events, e ≠ .reset k ∧ e ≠ .resetAll) →
    Host.Core.run core n s = .next t → s.insts[k]? = some x → t.insts[k]? = some y →
    (y.engine k).forgetInputs = (((x.engine k)).replay k (issues k n s)).forgetInputs

/-- For commands completed at once (41 R146): START, an UPDATE for each full block and FINAL with the rest give the
blocks of the reference transform and its length, whatever else KEY, IV and DIN hold at the steps that do not sample them.
If START's draw (a free value, log 3) fails, START ends with INIT_ERROR, there is no output, and the code left by FINAL, the
last command, is SEQUENCE_ERROR. The value of the padding bytes, in the machine and in the reference, is the spec's general
knowledge (40 R102's own mark, log 16). -/
def Obligations.CommandsComputeTransform : Prop :=
  ∀ (k : Nat) (x : Inst) (md : Mode) (st fin : Issue) (us : List Issue) (n : BitVec 4),
    x.active = false → x.busy = false → st.cmd = .start (modeCode md) → (∀ u ∈ us, u.cmd = .update) →
    fin.cmd = .final n → 16 * us.length + n.toNat ≤ lMax →
    ∃ (p : List Byte) (z : Inst),
      p = joinBlocks (us.map fun u => unpackBlock u.din) ++ (blockBytes (unpackBlock fin.din)).take n.toNat
      ∧ z = x.replay k (st :: us ++ [fin])
      ∧ z.active = false ∧ z.busy = false
      ∧ (if Config.initOk k x.draws = true then
          joinBlocks (Inst.replayOut k (x.perform k st) (us ++ [fin]))
            = transform Config.cipher md (unpackBlock st.key) (unpackBlock st.iv) p
          ∧ z.outCount.toNat = p.length + 16 - p.length % 16 ∧ z.outValid = true ∧ z.err = .ok ∧ z.modeL = md
        else
          (x.perform k st).err = .initError ∧ z.err = .sequenceError ∧ z.outCount = 0#32 ∧ z.outValid = false
          ∧ z.dout = Quad.fill 0#32)

/-- The canonical session of 41 R146 as the host sees it, sent to an idle instance of any machine, each command completing
before the next access: the words read are those of the reference transform. If START's draw (a free value, log 3) fails,
every word read is 0 and the code left by FINAL, the last command, is SEQUENCE_ERROR. The value of the padding bytes, in the
machine and in the reference, is the spec's general knowledge (40 R102's own mark, log 16). -/
def Obligations.CanonicalSessionReadsTransform : Prop :=
  ∀ (s : State) (k : Nat) (x : Inst) (md : Mode) (key iv d : Bytes16) (bs : List Bytes16) (n : BitVec 4)
    (rest : List Event),
    s.insts[k]? = some x → x.active = false → x.busy = false → s.waiting = [] →
    s.events = sessionEvents k md key iv bs n d ++ rest → 16 * bs.length + n.toNat ≤ lMax →
    ∃ (t : State) (y : Inst) (p : List Byte) (len : Nat),
      p = joinBlocks bs ++ (blockBytes d).take n.toNat ∧ len = (sessionEvents k md key iv bs n d).length
      ∧ Host.Core.run core len s = .next t
      ∧ t.insts = s.insts.set k y ∧ t.waiting = [] ∧ t.events = rest ∧ y.active = false ∧ y.busy = false
      ∧ (if Config.initOk k x.draws = true then
          reads len s
            = ((chunks (transform Config.cipher md key iv p)).map fun c => (packBlock c).toList).flatten
          ∧ y.outCount.toNat = p.length + 16 - p.length % 16 ∧ y.outValid = true ∧ y.err = .ok ∧ y.modeL = md
        else
          reads len s = List.replicate (4 * (bs.length + 1)) 0#32
          ∧ y.outCount = 0#32 ∧ y.outValid = false ∧ y.err = .sequenceError)

/-! ### The reference functions -/

/-- R103: the length law of padding, and that the ciphertext has that length. -/
def Obligations.CiphertextLength : Prop :=
  ∀ (E : Cipher) (md : Mode) (key iv : Bytes16) (p : List Byte),
    (pad p).length = p.length + 16 - p.length % 16
    ∧ (pad p).length % 16 = 0 ∧ p.length < (pad p).length ∧ (pad p).length ≤ p.length + 16 ∧ 16 ≤ (pad p).length
    ∧ (transform E md key iv p).length = (pad p).length

/-- R104: the padded plaintext is `floor(L/16) + 1` blocks, the full blocks of the plaintext and then the trailing bytes
with their padding. -/
def Obligations.PaddedBlocks : Prop :=
  ∀ p : List Byte,
    joinBlocks (chunks (pad p)) = pad p
    ∧ (chunks (pad p)).length = p.length / 16 + 1
    ∧ (∀ i < p.length / 16, ((chunks (pad p))[i]?).map blockBytes = some ((p.drop (16 * i)).take 16))
    ∧ ((chunks (pad p))[p.length / 16]?).map blockBytes
        = some (p.drop (16 * (p.length / 16))
            ++ List.replicate (16 - p.length % 16) (BitVec.ofNat 8 (16 - p.length % 16)))

/-- In NoChaining equal blocks give equal ciphertext blocks (R112) and the IV plays no part (R108). -/
def Obligations.EcbBlocksAreIndependent : Prop :=
  ∀ (E : Cipher) (key iv iv' : Bytes16) (p : List Byte) (i j : Nat),
    transform E .noChaining key iv p = transform E .noChaining key iv' p
    ∧ ((chunks (pad p))[i]? = (chunks (pad p))[j]? →
        (chunks (transform E .noChaining key iv p))[i]? = (chunks (transform E .noChaining key iv p))[j]?)

/-- R113: in CBCChaining with plaintext `0^32`, `C_0 = E(K, IV)` and `C_1 = E(K, C_0)`; under CipherPerm they are equal
exactly when `E(K, IV) = IV`. -/
def Obligations.CbcEqualBlocks : Prop :=
  ∀ (E D : Cipher) (key iv : Bytes16),
    (chunks (transform E .cbcChaining key iv (List.replicate 32 0#8)))[0]? = some (E key iv)
    ∧ (chunks (transform E .cbcChaining key iv (List.replicate 32 0#8)))[1]? = some (E key (E key iv))
    ∧ (CipherPerm E D → (E key iv = E key (E key iv) ↔ E key iv = iv))

/-- R118: under CipherPerm, the reference inverse gives the plaintext back, for every mode, key, IV and length. -/
def Obligations.DecInvertsTransform : Prop :=
  ∀ (E D : Cipher) (md : Mode) (key iv : Bytes16) (p : List Byte), CipherPerm E D →
    dec D md key iv (transform E md key iv p) = some p
end

