-- ==== Sys2Proof/Laws/State.lean ====
section
/-! SUPPORT. What each update does to each field: one lemma per field per update, true by rfl. -/

namespace Sys2Proof.Machine

section
variable (s : State) (x : Inst) (k : Nat) (a : Access) (r : Response) (es : List Event) (E : Cipher) (b : Bytes16)
variable (e : ErrCode) (md : Mode) (f : Inst → Inst) (i : Issue)

/-! #### setInst -/

@[simp] theorem State.setInst_insts : (s.setInst k x).insts = s.insts.set k x := rfl
@[simp] theorem State.setInst_waiting : (s.setInst k x).waiting = s.waiting := rfl
@[simp] theorem State.setInst_events : (s.setInst k x).events = s.events := rfl
@[simp] theorem State.setInst_resp : (s.setInst k x).resp = s.resp := rfl

/-! #### respond -/

@[simp] theorem State.respond_insts : (s.respond r).insts = s.insts := rfl
@[simp] theorem State.respond_waiting : (s.respond r).waiting = s.waiting := rfl
@[simp] theorem State.respond_events : (s.respond r).events = s.events := rfl
@[simp] theorem State.respond_resp : (s.respond r).resp = some r := rfl

/-! #### hold -/

@[simp] theorem State.hold_insts : (s.hold a).insts = s.insts := rfl
@[simp] theorem State.hold_waiting : (s.hold a).waiting = s.waiting ++ [a] := rfl
@[simp] theorem State.hold_events : (s.hold a).events = s.events := rfl
@[simp] theorem State.hold_resp : (s.hold a).resp = some .held := rfl

/-! #### begin -/

@[simp] theorem State.begin_insts : (s.begin es).insts = s.insts := rfl
@[simp] theorem State.begin_waiting : (s.begin es).waiting = s.waiting := rfl
@[simp] theorem State.begin_events : (s.begin es).events = es := rfl
@[simp] theorem State.begin_resp : (s.begin es).resp = none := rfl

/-! #### modifyInst -/

@[simp] theorem State.modifyInst_insts : (s.modifyInst k f).insts = s.insts.modify k f := rfl
@[simp] theorem State.modifyInst_waiting : (s.modifyInst k f).waiting = s.waiting := rfl
@[simp] theorem State.modifyInst_events : (s.modifyInst k f).events = s.events := rfl
@[simp] theorem State.modifyInst_resp : (s.modifyInst k f).resp = s.resp := rfl

/-! #### engineMoves -/

@[simp] theorem State.engineMoves_insts : (s.engineMoves k).insts = s.insts.modify k (Inst.engine k) := rfl
@[simp] theorem State.engineMoves_waiting : (s.engineMoves k).waiting = s.waiting := rfl
@[simp] theorem State.engineMoves_events : (s.engineMoves k).events = s.events := rfl
@[simp] theorem State.engineMoves_resp : (s.engineMoves k).resp = s.resp := rfl

/-! #### resetInst -/

@[simp] theorem State.resetInst_insts : (s.resetInst k).insts = s.insts.modify k Inst.resetEvent := rfl
@[simp] theorem State.resetInst_waiting : (s.resetInst k).waiting = s.waiting := rfl
@[simp] theorem State.resetInst_events : (s.resetInst k).events = s.events := rfl
@[simp] theorem State.resetInst_resp : (s.resetInst k).resp = s.resp := rfl

/-! #### resetInsts -/

@[simp] theorem State.resetInsts_insts : (s.resetInsts).insts = s.insts.map Inst.resetEvent := rfl
@[simp] theorem State.resetInsts_waiting : (s.resetInsts).waiting = s.waiting := rfl
@[simp] theorem State.resetInsts_events : (s.resetInsts).events = s.events := rfl
@[simp] theorem State.resetInsts_resp : (s.resetInsts).resp = s.resp := rfl

/-! #### deliver -/

@[simp] theorem State.deliver_insts : (s.deliver a).insts = s.insts := rfl
@[simp] theorem State.deliver_waiting : (s.deliver a).waiting = a :: s.waiting := rfl
@[simp] theorem State.deliver_events : (s.deliver a).events = s.events := rfl
@[simp] theorem State.deliver_resp : (s.deliver a).resp = s.resp := rfl

/-! #### refuse -/

@[simp] theorem Inst.refuse_active : (x.refuse e).active = x.active := rfl
@[simp] theorem Inst.refuse_outValid : (x.refuse e).outValid = x.outValid := rfl
@[simp] theorem Inst.refuse_err : (x.refuse e).err = e := rfl
@[simp] theorem Inst.refuse_outCount : (x.refuse e).outCount = x.outCount := rfl
@[simp] theorem Inst.refuse_key : (x.refuse e).key = x.key := rfl
@[simp] theorem Inst.refuse_iv : (x.refuse e).iv = x.iv := rfl
@[simp] theorem Inst.refuse_din : (x.refuse e).din = x.din := rfl
@[simp] theorem Inst.refuse_dout : (x.refuse e).dout = x.dout := rfl
@[simp] theorem Inst.refuse_keyL : (x.refuse e).keyL = x.keyL := rfl
@[simp] theorem Inst.refuse_chain : (x.refuse e).chain = x.chain := rfl
@[simp] theorem Inst.refuse_inL : (x.refuse e).inL = x.inL := rfl
@[simp] theorem Inst.refuse_modeL : (x.refuse e).modeL = x.modeL := rfl
@[simp] theorem Inst.refuse_pendMode : (x.refuse e).pendMode = x.pendMode := rfl
@[simp] theorem Inst.refuse_pendOp : (x.refuse e).pendOp = x.pendOp := rfl
@[simp] theorem Inst.refuse_draws : (x.refuse e).draws = x.draws := rfl

/-! #### clearOutput -/

@[simp] theorem Inst.clearOutput_active : (x.clearOutput).active = x.active := rfl
@[simp] theorem Inst.clearOutput_outValid : (x.clearOutput).outValid = false := rfl
@[simp] theorem Inst.clearOutput_err : (x.clearOutput).err = x.err := rfl
@[simp] theorem Inst.clearOutput_outCount : (x.clearOutput).outCount = 0#32 := rfl
@[simp] theorem Inst.clearOutput_key : (x.clearOutput).key = x.key := rfl
@[simp] theorem Inst.clearOutput_iv : (x.clearOutput).iv = x.iv := rfl
@[simp] theorem Inst.clearOutput_din : (x.clearOutput).din = x.din := rfl
@[simp] theorem Inst.clearOutput_dout : (x.clearOutput).dout = packBlock zeroBlock := rfl
@[simp] theorem Inst.clearOutput_keyL : (x.clearOutput).keyL = x.keyL := rfl
@[simp] theorem Inst.clearOutput_chain : (x.clearOutput).chain = x.chain := rfl
@[simp] theorem Inst.clearOutput_inL : (x.clearOutput).inL = x.inL := rfl
@[simp] theorem Inst.clearOutput_modeL : (x.clearOutput).modeL = x.modeL := rfl
@[simp] theorem Inst.clearOutput_pendMode : (x.clearOutput).pendMode = x.pendMode := rfl
@[simp] theorem Inst.clearOutput_pendOp : (x.clearOutput).pendOp = x.pendOp := rfl
@[simp] theorem Inst.clearOutput_draws : (x.clearOutput).draws = x.draws := rfl

/-! #### acceptStart -/

@[simp] theorem Inst.acceptStart_active : (x.acceptStart md).active = x.active := rfl
@[simp] theorem Inst.acceptStart_outValid : (x.acceptStart md).outValid = x.outValid := rfl
@[simp] theorem Inst.acceptStart_err : (x.acceptStart md).err = .ok := rfl
@[simp] theorem Inst.acceptStart_outCount : (x.acceptStart md).outCount = x.outCount := rfl
@[simp] theorem Inst.acceptStart_key : (x.acceptStart md).key = x.key := rfl
@[simp] theorem Inst.acceptStart_iv : (x.acceptStart md).iv = x.iv := rfl
@[simp] theorem Inst.acceptStart_din : (x.acceptStart md).din = x.din := rfl
@[simp] theorem Inst.acceptStart_dout : (x.acceptStart md).dout = x.dout := rfl
@[simp] theorem Inst.acceptStart_keyL : (x.acceptStart md).keyL = unpackBlock x.key := rfl
@[simp] theorem Inst.acceptStart_chain : (x.acceptStart md).chain = unpackBlock x.iv := rfl
@[simp] theorem Inst.acceptStart_inL : (x.acceptStart md).inL = x.inL := rfl
@[simp] theorem Inst.acceptStart_modeL : (x.acceptStart md).modeL = x.modeL := rfl
@[simp] theorem Inst.acceptStart_pendMode : (x.acceptStart md).pendMode = md := rfl
@[simp] theorem Inst.acceptStart_pendOp : (x.acceptStart md).pendOp = .start := rfl
@[simp] theorem Inst.acceptStart_draws : (x.acceptStart md).draws = x.draws := rfl

/-! #### blockStep -/

@[simp] theorem Inst.blockStep_active : (x.blockStep E b).active = x.active := rfl
@[simp] theorem Inst.blockStep_outValid : (x.blockStep E b).outValid = true := rfl
@[simp] theorem Inst.blockStep_err : (x.blockStep E b).err = x.err := rfl
@[simp] theorem Inst.blockStep_outCount : (x.blockStep E b).outCount = x.outCount + 16#32 := rfl
@[simp] theorem Inst.blockStep_key : (x.blockStep E b).key = x.key := rfl
@[simp] theorem Inst.blockStep_iv : (x.blockStep E b).iv = x.iv := rfl
@[simp] theorem Inst.blockStep_din : (x.blockStep E b).din = x.din := rfl
@[simp] theorem Inst.blockStep_dout : (x.blockStep E b).dout = packBlock (E x.keyL (chainIn x.modeL x.chain b)) := rfl
@[simp] theorem Inst.blockStep_keyL : (x.blockStep E b).keyL = x.keyL := rfl
@[simp] theorem Inst.blockStep_chain : (x.blockStep E b).chain = chainOut x.modeL x.chain (E x.keyL (chainIn x.modeL x.chain b)) := rfl
@[simp] theorem Inst.blockStep_inL : (x.blockStep E b).inL = x.inL := rfl
@[simp] theorem Inst.blockStep_modeL : (x.blockStep E b).modeL = x.modeL := rfl
@[simp] theorem Inst.blockStep_pendMode : (x.blockStep E b).pendMode = x.pendMode := rfl
@[simp] theorem Inst.blockStep_pendOp : (x.blockStep E b).pendOp = x.pendOp := rfl
@[simp] theorem Inst.blockStep_draws : (x.blockStep E b).draws = x.draws := rfl

/-! #### completeUpdate -/

@[simp] theorem Inst.completeUpdate_active : (x.completeUpdate E).active = x.active := rfl
@[simp] theorem Inst.completeUpdate_outValid : (x.completeUpdate E).outValid = true := rfl
@[simp] theorem Inst.completeUpdate_err : (x.completeUpdate E).err = x.err := rfl
@[simp] theorem Inst.completeUpdate_outCount : (x.completeUpdate E).outCount = x.outCount + 16#32 := rfl
@[simp] theorem Inst.completeUpdate_key : (x.completeUpdate E).key = x.key := rfl
@[simp] theorem Inst.completeUpdate_iv : (x.completeUpdate E).iv = x.iv := rfl
@[simp] theorem Inst.completeUpdate_din : (x.completeUpdate E).din = x.din := rfl
@[simp] theorem Inst.completeUpdate_dout : (x.completeUpdate E).dout = packBlock (E x.keyL (chainIn x.modeL x.chain x.inL)) := rfl
@[simp] theorem Inst.completeUpdate_keyL : (x.completeUpdate E).keyL = x.keyL := rfl
@[simp] theorem Inst.completeUpdate_chain : (x.completeUpdate E).chain = chainOut x.modeL x.chain (E x.keyL (chainIn x.modeL x.chain x.inL)) := rfl
@[simp] theorem Inst.completeUpdate_inL : (x.completeUpdate E).inL = x.inL := rfl
@[simp] theorem Inst.completeUpdate_modeL : (x.completeUpdate E).modeL = x.modeL := rfl
@[simp] theorem Inst.completeUpdate_pendMode : (x.completeUpdate E).pendMode = x.pendMode := rfl
@[simp] theorem Inst.completeUpdate_pendOp : (x.completeUpdate E).pendOp = .none := rfl
@[simp] theorem Inst.completeUpdate_draws : (x.completeUpdate E).draws = x.draws := rfl

/-! #### completeFinal -/

@[simp] theorem Inst.completeFinal_active : (x.completeFinal E).active = false := rfl
@[simp] theorem Inst.completeFinal_outValid : (x.completeFinal E).outValid = true := rfl
@[simp] theorem Inst.completeFinal_err : (x.completeFinal E).err = x.err := rfl
@[simp] theorem Inst.completeFinal_outCount : (x.completeFinal E).outCount = x.outCount + 16#32 := rfl
@[simp] theorem Inst.completeFinal_key : (x.completeFinal E).key = x.key := rfl
@[simp] theorem Inst.completeFinal_iv : (x.completeFinal E).iv = x.iv := rfl
@[simp] theorem Inst.completeFinal_din : (x.completeFinal E).din = x.din := rfl
@[simp] theorem Inst.completeFinal_dout : (x.completeFinal E).dout = packBlock (E x.keyL (chainIn x.modeL x.chain x.inL)) := rfl
@[simp] theorem Inst.completeFinal_keyL : (x.completeFinal E).keyL = zeroBlock := rfl
@[simp] theorem Inst.completeFinal_chain : (x.completeFinal E).chain = zeroBlock := rfl
@[simp] theorem Inst.completeFinal_inL : (x.completeFinal E).inL = x.inL := rfl
@[simp] theorem Inst.completeFinal_modeL : (x.completeFinal E).modeL = x.modeL := rfl
@[simp] theorem Inst.completeFinal_pendMode : (x.completeFinal E).pendMode = x.pendMode := rfl
@[simp] theorem Inst.completeFinal_pendOp : (x.completeFinal E).pendOp = .none := rfl
@[simp] theorem Inst.completeFinal_draws : (x.completeFinal E).draws = x.draws := rfl

/-! #### resetEvent -/

@[simp] theorem Inst.resetEvent_active : x.resetEvent.active = Inst.reset.active := rfl
@[simp] theorem Inst.resetEvent_outValid : x.resetEvent.outValid = Inst.reset.outValid := rfl
@[simp] theorem Inst.resetEvent_err : x.resetEvent.err = Inst.reset.err := rfl
@[simp] theorem Inst.resetEvent_outCount : x.resetEvent.outCount = Inst.reset.outCount := rfl
@[simp] theorem Inst.resetEvent_key : x.resetEvent.key = Inst.reset.key := rfl
@[simp] theorem Inst.resetEvent_iv : x.resetEvent.iv = Inst.reset.iv := rfl
@[simp] theorem Inst.resetEvent_din : x.resetEvent.din = Inst.reset.din := rfl
@[simp] theorem Inst.resetEvent_dout : x.resetEvent.dout = Inst.reset.dout := rfl
@[simp] theorem Inst.resetEvent_keyL : x.resetEvent.keyL = Inst.reset.keyL := rfl
@[simp] theorem Inst.resetEvent_chain : x.resetEvent.chain = Inst.reset.chain := rfl
@[simp] theorem Inst.resetEvent_inL : x.resetEvent.inL = Inst.reset.inL := rfl
@[simp] theorem Inst.resetEvent_modeL : x.resetEvent.modeL = Inst.reset.modeL := rfl
@[simp] theorem Inst.resetEvent_pendMode : x.resetEvent.pendMode = Inst.reset.pendMode := rfl
@[simp] theorem Inst.resetEvent_pendOp : x.resetEvent.pendOp = Inst.reset.pendOp := rfl
@[simp] theorem Inst.resetEvent_draws : x.resetEvent.draws = x.draws := rfl

/-! #### withInputs -/

@[simp] theorem Inst.withInputs_active : (x.withInputs i).active = x.active := rfl
@[simp] theorem Inst.withInputs_outValid : (x.withInputs i).outValid = x.outValid := rfl
@[simp] theorem Inst.withInputs_err : (x.withInputs i).err = x.err := rfl
@[simp] theorem Inst.withInputs_outCount : (x.withInputs i).outCount = x.outCount := rfl
@[simp] theorem Inst.withInputs_key : (x.withInputs i).key = i.key := rfl
@[simp] theorem Inst.withInputs_iv : (x.withInputs i).iv = i.iv := rfl
@[simp] theorem Inst.withInputs_din : (x.withInputs i).din = i.din := rfl
@[simp] theorem Inst.withInputs_dout : (x.withInputs i).dout = x.dout := rfl
@[simp] theorem Inst.withInputs_keyL : (x.withInputs i).keyL = x.keyL := rfl
@[simp] theorem Inst.withInputs_chain : (x.withInputs i).chain = x.chain := rfl
@[simp] theorem Inst.withInputs_inL : (x.withInputs i).inL = x.inL := rfl
@[simp] theorem Inst.withInputs_modeL : (x.withInputs i).modeL = x.modeL := rfl
@[simp] theorem Inst.withInputs_pendMode : (x.withInputs i).pendMode = x.pendMode := rfl
@[simp] theorem Inst.withInputs_pendOp : (x.withInputs i).pendOp = x.pendOp := rfl
@[simp] theorem Inst.withInputs_draws : (x.withInputs i).draws = x.draws := rfl

/-! #### forgetInputs -/

@[simp] theorem Inst.forgetInputs_active : (x.forgetInputs).active = x.active := rfl
@[simp] theorem Inst.forgetInputs_outValid : (x.forgetInputs).outValid = x.outValid := rfl
@[simp] theorem Inst.forgetInputs_err : (x.forgetInputs).err = x.err := rfl
@[simp] theorem Inst.forgetInputs_outCount : (x.forgetInputs).outCount = x.outCount := rfl
@[simp] theorem Inst.forgetInputs_key : (x.forgetInputs).key = Quad.fill 0#32 := rfl
@[simp] theorem Inst.forgetInputs_iv : (x.forgetInputs).iv = Quad.fill 0#32 := rfl
@[simp] theorem Inst.forgetInputs_din : (x.forgetInputs).din = Quad.fill 0#32 := rfl
@[simp] theorem Inst.forgetInputs_dout : (x.forgetInputs).dout = x.dout := rfl
@[simp] theorem Inst.forgetInputs_keyL : (x.forgetInputs).keyL = x.keyL := rfl
@[simp] theorem Inst.forgetInputs_chain : (x.forgetInputs).chain = x.chain := rfl
@[simp] theorem Inst.forgetInputs_inL : (x.forgetInputs).inL = x.inL := rfl
@[simp] theorem Inst.forgetInputs_modeL : (x.forgetInputs).modeL = x.modeL := rfl
@[simp] theorem Inst.forgetInputs_pendMode : (x.forgetInputs).pendMode = x.pendMode := rfl
@[simp] theorem Inst.forgetInputs_pendOp : (x.forgetInputs).pendOp = x.pendOp := rfl
@[simp] theorem Inst.forgetInputs_draws : (x.forgetInputs).draws = x.draws := rfl

end

end Sys2Proof.Machine
end

