-- ==== Sys2Proof/Laws/Ops.lean ====
section
/-! SUPPORT. What each shared operation can do, said once: its answer when the instance is there, and what follows from an
answer `next t`. -/

namespace Sys2Proof.Machine

variable {s t : State} {k : Nat} {x : Inst}

/-! ### Answers -/

theorem onInst_some (h : s.insts[k]? = some x) (f : Inst → Result) : onInst k s f = f x := by
  simp [onInst, h]

theorem onInst_none (h : s.insts[k]? = none) (f : Inst → Result) : onInst k s f = .fault (.noInstance k) := by
  simp [onInst, h]

/-- An answer `next t` comes from an instance that is there. -/
theorem onInst_next {f : Inst → Result} (h : onInst k s f = .next t) :
    ∃ x, s.insts[k]? = some x ∧ f x = .next t := by
  unfold onInst at h
  split at h
  · cases h
  · next x hx => exact ⟨x, hx, h⟩

theorem readInst_some (h : s.insts[k]? = some x) (f : Inst → Word) :
    readInst k f s = .next (s.respond (.data (f x))) := onInst_some h _

theorem writeInst_some (h : s.insts[k]? = some x) (f : Inst → Inst) :
    writeInst k f s = .next ((s.setInst k (f x)).respond .written) := onInst_some h _

theorem ignoreWrite_some (h : s.insts[k]? = some x) : ignoreWrite k s = .next (s.respond .written) := onInst_some h _

theorem busErrorAt_some (h : s.insts[k]? = some x) : busErrorAt k s = .next (s.respond .busError) := onInst_some h _

theorem cmdWrite_busy (h : s.insts[k]? = some x) (hb : x.busy = true) (w : Word) (f : Inst → Inst) :
    cmdWrite k w f s = .next (s.hold ⟨k, 0x00, 4, .write w⟩) := by
  simp [cmdWrite, onInst_some h, hb]

theorem cmdWrite_idle (h : s.insts[k]? = some x) (hb : x.busy = false) (w : Word) (f : Inst → Inst) :
    cmdWrite k w f s = .next ((s.setInst k (f x)).respond .written) := by
  simp [cmdWrite, onInst_some h, hb]

theorem doutRead_busy (h : s.insts[k]? = some x) (hb : x.busy = true) (off : BitVec 8) (f : Inst → Word) :
    doutRead k off f s = .next (s.hold ⟨k, off, 4, .read⟩) := by
  simp [doutRead, onInst_some h, hb]

theorem doutRead_idle (h : s.insts[k]? = some x) (hb : x.busy = false) (off : BitVec 8) (f : Inst → Word) :
    doutRead k off f s = .next (s.respond (.data (f x))) := by
  simp [doutRead, onInst_some h, hb]

/-! ### What an answer `next t` says -/

theorem readInst_next {f : Inst → Word} (h : readInst k f s = .next t) :
    ∃ x, s.insts[k]? = some x ∧ t = s.respond (.data (f x)) := by
  obtain ⟨x, hx, h⟩ := onInst_next h
  exact ⟨x, hx, (Host.Outcome.next.inj h).symm⟩

theorem writeInst_next {f : Inst → Inst} (h : writeInst k f s = .next t) :
    ∃ x, s.insts[k]? = some x ∧ t = (s.setInst k (f x)).respond .written := by
  obtain ⟨x, hx, h⟩ := onInst_next h
  exact ⟨x, hx, (Host.Outcome.next.inj h).symm⟩

theorem ignoreWrite_next (h : ignoreWrite k s = .next t) :
    ∃ x, s.insts[k]? = some x ∧ t = s.respond .written := by
  obtain ⟨x, hx, h⟩ := onInst_next h
  exact ⟨x, hx, (Host.Outcome.next.inj h).symm⟩

theorem busErrorAt_next (h : busErrorAt k s = .next t) :
    ∃ x, s.insts[k]? = some x ∧ t = s.respond .busError := by
  obtain ⟨x, hx, h⟩ := onInst_next h
  exact ⟨x, hx, (Host.Outcome.next.inj h).symm⟩

theorem cmdWrite_next {w : Word} {f : Inst → Inst} (h : cmdWrite k w f s = .next t) :
    ∃ x, s.insts[k]? = some x
      ∧ ((x.busy = true ∧ t = s.hold ⟨k, 0x00, 4, .write w⟩)
        ∨ (x.busy = false ∧ t = (s.setInst k (f x)).respond .written)) := by
  obtain ⟨x, hx, h⟩ := onInst_next h
  refine ⟨x, hx, ?_⟩
  cases hb : x.busy <;> simp only [hb, if_true, Bool.false_eq_true, if_false] at h
  · exact .inr ⟨rfl, (Host.Outcome.next.inj h).symm⟩
  · exact .inl ⟨rfl, (Host.Outcome.next.inj h).symm⟩

theorem doutRead_next {off : BitVec 8} {f : Inst → Word} (h : doutRead k off f s = .next t) :
    ∃ x, s.insts[k]? = some x
      ∧ ((x.busy = true ∧ t = s.hold ⟨k, off, 4, .read⟩)
        ∨ (x.busy = false ∧ t = s.respond (.data (f x)))) := by
  obtain ⟨x, hx, h⟩ := onInst_next h
  refine ⟨x, hx, ?_⟩
  cases hb : x.busy <;> simp only [hb, if_true, Bool.false_eq_true, if_false] at h
  · exact .inr ⟨rfl, (Host.Outcome.next.inj h).symm⟩
  · exact .inl ⟨rfl, (Host.Outcome.next.inj h).symm⟩

/-! ### BUSY and the engine -/

theorem busy_iff : x.busy = true ↔ x.pendOp ≠ .none := by simp [Inst.busy]

theorem not_busy_iff : x.busy = false ↔ x.pendOp = .none := by simp [Inst.busy]

theorem busyAt_some (h : s.insts[k]? = some x) : s.busyAt k = x.busy := by simp [State.busyAt, h]

/-- The engine of an idle instance does nothing. -/
theorem engine_idle (h : x.busy = false) : x.engine k = x := by
  simp [Inst.engine, Inst.complete, not_busy_iff.mp h]

/-- After the engine has moved nothing is in flight. -/
theorem engine_not_busy (k : Nat) (x : Inst) : (x.engine k).busy = false := by
  rw [not_busy_iff]
  unfold Inst.engine Inst.complete
  cases hp : x.pendOp
  · simpa using hp
  · simp only [Inst.completeStart]; split <;> rfl
  · rfl
  · rfl

theorem completeStart_true (x : Inst) :
    x.completeStart true = { x with active := true, modeL := x.pendMode, pendOp := .none, draws := x.draws + 1 } := rfl

theorem completeStart_false (x : Inst) :
    x.completeStart false =
      { x with err := .initError, keyL := zeroBlock, chain := zeroBlock, pendOp := .none, draws := x.draws + 1 } := rfl

end Sys2Proof.Machine
end

