-- ==== Sys2Proof/Laws/Blocks.lean ====
section
/-! SUPPORT. Sixteen-byte values: packing, bytes, blocks of a byte sequence. -/

namespace Sys2Proof.Machine

@[simp] theorem unpackWord_packWord (b : Quad Byte) : unpackWord (packWord b) = b := by
  obtain ⟨b0, b1, b2, b3⟩ := b
  simp only [packWord, unpackWord, Quad.mk.injEq]
  refine ⟨?_, ?_, ?_, ?_⟩ <;>
  · apply BitVec.eq_of_getLsbD_eq
    intro i hi
    simp only [BitVec.getLsbD_extractLsb', BitVec.getLsbD_or, BitVec.getLsbD_shiftLeft, BitVec.getLsbD_setWidth]
    interval_cases i <;> simp

@[simp] theorem packWord_unpackWord (w : Word) : packWord (unpackWord w) = w := by
  simp only [packWord, unpackWord]
  apply BitVec.eq_of_getLsbD_eq
  intro i hi
  simp only [BitVec.getLsbD_or, BitVec.getLsbD_shiftLeft, BitVec.getLsbD_setWidth, BitVec.getLsbD_extractLsb']
  interval_cases i <;> simp

@[simp] theorem unpackBlock_packBlock (b : Bytes16) : unpackBlock (packBlock b) = b := by
  simp [unpackBlock, packBlock, Quad.map]

@[simp] theorem packBlock_unpackBlock (q : Quad Word) : packBlock (unpackBlock q) = q := by
  simp [unpackBlock, packBlock, Quad.map]

@[simp] theorem xorBlock_self_right (a b : Bytes16) : xorBlock (xorBlock a b) b = a := by
  simp [xorBlock, Quad.zipWith]

theorem packBlock_zero : packBlock zeroBlock = Quad.fill 0#32 := by decide

theorem unpackBlock_zero : unpackBlock (Quad.fill 0#32) = zeroBlock := by decide

@[simp] theorem blockBytes_length (b : Bytes16) : (blockBytes b).length = 16 := rfl

theorem blockBytes_eq (b : Bytes16) : blockBytes b =
    [b.x0.x0, b.x0.x1, b.x0.x2, b.x0.x3, b.x1.x0, b.x1.x1, b.x1.x2, b.x1.x3,
      b.x2.x0, b.x2.x1, b.x2.x2, b.x2.x3, b.x3.x0, b.x3.x1, b.x3.x2, b.x3.x3] := rfl

@[simp] theorem joinBlocks_nil : joinBlocks [] = [] := rfl

@[simp] theorem joinBlocks_cons (b : Bytes16) (bs : List Bytes16) :
    joinBlocks (b :: bs) = blockBytes b ++ joinBlocks bs := rfl

theorem joinBlocks_append (as bs : List Bytes16) : joinBlocks (as ++ bs) = joinBlocks as ++ joinBlocks bs := by
  simp [joinBlocks]

@[simp] theorem joinBlocks_length (bs : List Bytes16) : (joinBlocks bs).length = 16 * bs.length := by
  induction bs with
  | nil => rfl
  | cons b bs ih => simp [ih]; omega

/-- Splitting off a block's own bytes gives the block. -/
theorem chunks_block (b : Bytes16) (l : List Byte) : chunks (blockBytes b ++ l) = b :: chunks l := rfl

theorem chunks_join_append (bs : List Bytes16) (l : List Byte) : chunks (joinBlocks bs ++ l) = bs ++ chunks l := by
  induction bs with
  | nil => rfl
  | cons b bs ih => rw [joinBlocks_cons, List.append_assoc, chunks_block, ih]; rfl

theorem chunks_nil : chunks [] = [] := rfl

@[simp] theorem chunks_joinBlocks (bs : List Bytes16) : chunks (joinBlocks bs) = bs := by
  simpa [chunks_nil] using chunks_join_append bs []

/-- A block from sixteen bytes. -/
theorem exists_block {l : List Byte} (h : l.length = 16) : ∃ b : Bytes16, blockBytes b = l := by
  match l, h with
  | [a0, a1, a2, a3, b0, b1, b2, b3, c0, c1, c2, c3, d0, d1, d2, d3], _ =>
    exact ⟨⟨⟨a0, a1, a2, a3⟩, ⟨b0, b1, b2, b3⟩, ⟨c0, c1, c2, c3⟩, ⟨d0, d1, d2, d3⟩⟩, rfl⟩

/-- A byte sequence of whole blocks is its blocks joined. -/
theorem exists_blocks {l : List Byte} {n : Nat} (h : l.length = 16 * n) :
    ∃ bs : List Bytes16, bs.length = n ∧ joinBlocks bs = l := by
  induction n generalizing l with
  | zero => exact ⟨[], rfl, (List.length_eq_zero_iff.mp (by simpa using h)).symm⟩
  | succ n ih =>
    obtain ⟨b, hb⟩ := exists_block (l := l.take 16) (by simp; omega)
    obtain ⟨bs, hl, hbs⟩ := ih (l := l.drop 16) (by simp; omega)
    exact ⟨b :: bs, by simp [hl], by rw [joinBlocks_cons, hb, hbs, List.take_append_drop]⟩

theorem joinBlocks_chunks {l : List Byte} (h : l.length % 16 = 0) : joinBlocks (chunks l) = l := by
  obtain ⟨bs, -, rfl⟩ := exists_blocks (l := l) (n := l.length / 16) (by omega)
  rw [chunks_joinBlocks]

/-- The padded length is a whole number of blocks. -/
theorem pad_length (p : List Byte) : (pad p).length = p.length + (16 - p.length % 16) := by
  simp [pad, padLen]

/-- The padded final block, byte by byte (R138). -/
theorem blockBytes_padBlock {n : Nat} (hn : n < 16) (d : Bytes16) :
    blockBytes (padBlock n d) = (blockBytes d).take n ++ List.replicate (16 - n) (BitVec.ofNat 8 (16 - n)) := by
  obtain ⟨⟨a0, a1, a2, a3⟩, ⟨b0, b1, b2, b3⟩, ⟨c0, c1, c2, c3⟩, ⟨d0, d1, d2, d3⟩⟩ := d
  interval_cases n <;> rfl

/-- The first of some blocks, encrypted, and what it leaves to the others (R105, R106, R144). -/
theorem encryptBlocks_cons (E : Cipher) (md : Mode) (key iv b : Bytes16) (bs : List Bytes16) :
    encryptBlocks E md key iv (b :: bs)
      = E key (chainIn md iv b) :: encryptBlocks E md key (chainOut md iv (E key (chainIn md iv b))) bs := by
  cases md <;> rfl

/-- Block `i` of the blocks joined. -/
theorem getElem?_joinBlocks {bs : List Bytes16} {i : Nat} (h : i < bs.length) :
    (bs[i]?).map blockBytes = some (((joinBlocks bs).drop (16 * i)).take 16) := by
  induction bs generalizing i with
  | nil => cases h
  | cons b bs ih =>
    cases i with
    | zero => simp [List.take_append]
    | succ i =>
      rw [List.getElem?_cons_succ, ih (by simpa using h), joinBlocks_cons,
        show 16 * (i + 1) = 16 + 16 * i by omega, ← List.drop_drop]
      rfl

end Sys2Proof.Machine
end

