-- ==== Sys2Proof/Laws/Bus.lean ====
section
/-! SUPPORT. The bus: which instance an address reaches, which waiting access goes first, and what a step can be. -/

namespace Sys2Proof.Machine

/-! ### Addresses -/

theorem route_window {n k off : Nat} (hk : k < n) (ho : off < 0x100) :
    route n (Config.base + 0x100 * k + off) = some (k, BitVec.ofNat 8 off) := by
  have h2 : (0x100 * k + off) / 0x100 = k := by omega
  have h3 : BitVec.ofNat 8 (0x100 * k + off) = BitVec.ofNat 8 off := by
    apply BitVec.eq_of_toNat_eq
    simp only [BitVec.toNat_ofNat]
    omega
  simp [route, h2, h3, hk, Nat.add_assoc]

theorem route_some {n addr k : Nat} {off : BitVec 8} (h : route n addr = some (k, off)) : k < n := by
  unfold route at h
  split at h
  · next hc =>
    simp only [Option.some.injEq, Prod.mk.injEq] at h
    omega
  · cases h

/-! ### Waiting accesses -/

variable {p : Access → Bool}

theorem takeReady_blocked {as : List Access} (h : ∀ a ∈ as, p a = true) : takeReady p as = none := by
  induction as with
  | nil => rfl
  | cons a as ih => simp [takeReady, h a (by simp), ih fun b hb => h b (by simp [hb])]

theorem takeReady_none {as : List Access} (h : takeReady p as = none) : ∀ a ∈ as, p a = true := by
  induction as with
  | nil => simp
  | cons a as ih =>
    simp only [takeReady] at h
    split at h
    · next ha =>
      simp only [Option.map_eq_none_iff] at h
      simpa [ha] using ih h
    · cases h

theorem takeReady_append {pre post : List Access} {a : Access} (hpre : ∀ b ∈ pre, p b = true) (ha : p a = false) :
    takeReady p (pre ++ a :: post) = some (a, pre ++ post) := by
  induction pre with
  | nil => simp [takeReady, ha]
  | cons b pre ih => simp [takeReady, hpre b (by simp), ih fun c hc => hpre c (by simp [hc])]

/-- The access taken is not blocked, and the list falls into those before it, all blocked, itself and the rest. -/
theorem takeReady_some {as rest : List Access} {a : Access} (h : takeReady p as = some (a, rest)) :
    ∃ pre post, as = pre ++ a :: post ∧ rest = pre ++ post ∧ (∀ b ∈ pre, p b = true) ∧ p a = false := by
  induction as generalizing rest with
  | nil => cases h
  | cons b as ih =>
    simp only [takeReady] at h
    split at h
    · next hb =>
      simp only [Option.map_eq_some_iff, Prod.mk.injEq] at h
      obtain ⟨⟨c, r⟩, hr, rfl, rfl⟩ := h
      obtain ⟨pre, post, rfl, rfl, hpre, ha⟩ := ih hr
      exact ⟨b :: pre, post, rfl, rfl, by simpa [hb] using hpre, ha⟩
    · next hb =>
      simp only [Option.some.injEq, Prod.mk.injEq] at h
      obtain ⟨rfl, rfl⟩ := h
      exact ⟨[], as, rfl, rfl, by simp, by simpa using hb⟩

/-! ### The first busy engine -/

theorem firstBusy_none {n : Nat} {xs : List Inst} (h : firstBusy n xs = none) : ∀ x ∈ xs, x.busy = false := by
  induction xs generalizing n with
  | nil => simp
  | cons x xs ih =>
    simp only [firstBusy] at h
    split at h
    · cases h
    · next hx => simpa [Bool.not_eq_true _ ▸ hx] using ih h

theorem firstBusy_some {n k : Nat} {xs : List Inst} (h : firstBusy n xs = some k) :
    n ≤ k ∧ ∃ x, xs[k - n]? = some x ∧ x.busy = true := by
  induction xs generalizing n with
  | nil => cases h
  | cons x xs ih =>
    simp only [firstBusy] at h
    split at h
    · next hx =>
      obtain rfl := Option.some.inj h
      exact ⟨le_refl _, x, by simp, hx⟩
    · obtain ⟨hle, y, hy, hb⟩ := ih h
      refine ⟨by omega, y, ?_, hb⟩
      obtain ⟨d, rfl⟩ : ∃ d, k = n + 1 + d := ⟨k - (n + 1), by omega⟩
      have h1 : n + 1 + d - (n + 1) = d := by omega
      have h2 : n + 1 + d - n = d + 1 := by omega
      simpa [h1, h2] using hy

/-! ### Whose turn it is -/

variable {s t : State}

theorem turn_ready {pre post : List Access} {a : Access} (hw : s.waiting = pre ++ a :: post)
    (hpre : ∀ b ∈ pre, s.blocked b = true) (ha : s.blocked a = false) :
    s.turn = .run a { s with waiting := pre ++ post, resp := none } := by
  simp [State.turn, hw, takeReady_append hpre ha, State.begin]

theorem turn_access {addr size : Nat} {dir : Dir} {es : List Event} {k : Nat} {off : BitVec 8}
    (hw : ∀ a ∈ s.waiting, s.blocked a = true) (he : s.events = .access addr size dir :: es)
    (hr : route s.insts.length addr = some (k, off)) :
    s.turn = .run ⟨k, off, size, dir⟩ { s with events := es, resp := none } := by
  simp [State.turn, takeReady_blocked hw, he, hr, State.begin]

theorem turn_complete {k : Nat} {es : List Event} (hw : ∀ a ∈ s.waiting, s.blocked a = true)
    (he : s.events = .complete k :: es) : s.turn = .complete k { s with events := es, resp := none } := by
  simp [State.turn, takeReady_blocked hw, he, State.begin]

theorem turn_reset {k : Nat} {es : List Event} (hw : ∀ a ∈ s.waiting, s.blocked a = true)
    (he : s.events = .reset k :: es) : s.turn = .reset k { s with events := es, resp := none } := by
  simp [State.turn, takeReady_blocked hw, he, State.begin]

theorem turn_resetAll {es : List Event} (hw : ∀ a ∈ s.waiting, s.blocked a = true)
    (he : s.events = .resetAll :: es) : s.turn = .resetAll { s with events := es, resp := none } := by
  simp [State.turn, takeReady_blocked hw, he, State.begin]

/-- Everything a turn can be. -/
theorem turn_cases (s : State) :
    (∃ pre post a, s.waiting = pre ++ a :: post ∧ (∀ b ∈ pre, s.blocked b = true) ∧ s.blocked a = false
      ∧ s.turn = .run a { s with waiting := pre ++ post, resp := none })
    ∨ ((∀ a ∈ s.waiting, s.blocked a = true)
      ∧ ((∃ addr size dir es k off, s.events = .access addr size dir :: es
            ∧ route s.insts.length addr = some (k, off)
            ∧ s.turn = .run ⟨k, off, size, dir⟩ { s with events := es, resp := none })
        ∨ (∃ addr size dir es, s.events = .access addr size dir :: es ∧ route s.insts.length addr = none
            ∧ s.turn = .pass { s with events := es, resp := none })
        ∨ (∃ k es, s.events = .complete k :: es ∧ s.turn = .complete k { s with events := es, resp := none })
        ∨ (∃ k es, s.events = .reset k :: es ∧ s.turn = .reset k { s with events := es, resp := none })
        ∨ (∃ es, s.events = .resetAll :: es ∧ s.turn = .resetAll { s with events := es, resp := none })
        ∨ (∃ k x, s.events = [] ∧ s.insts[k]? = some x ∧ x.busy = true
            ∧ s.turn = .complete k { s with resp := none })
        ∨ (s.events = [] ∧ (∀ x ∈ s.insts, x.busy = false) ∧ s.turn = .pass { s with resp := none }))) := by
  cases hw : takeReady s.blocked s.waiting with
  | some r =>
    obtain ⟨a, rest⟩ := r
    obtain ⟨pre, post, h1, h2, h3, h4⟩ := takeReady_some hw
    exact .inl ⟨pre, post, a, h1, h3, h4, turn_ready h1 h3 h4⟩
  | none =>
    have hw' := takeReady_none hw
    refine .inr ⟨hw', ?_⟩
    match he : s.events with
    | .access addr size dir :: es =>
      cases hr : route s.insts.length addr with
      | none =>
        exact .inr (.inl ⟨addr, size, dir, es, rfl, hr, by simp [State.turn, hw, he, hr, State.begin]⟩)
      | some r => exact .inl ⟨addr, size, dir, es, r.1, r.2, rfl, hr, turn_access hw' he hr⟩
    | .complete k :: es => exact .inr (.inr (.inl ⟨k, es, rfl, turn_complete hw' he⟩))
    | .reset k :: es => exact .inr (.inr (.inr (.inl ⟨k, es, rfl, turn_reset hw' he⟩)))
    | .resetAll :: es => exact .inr (.inr (.inr (.inr (.inl ⟨es, rfl, turn_resetAll hw' he⟩))))
    | [] =>
      cases hf : firstBusy 0 s.insts with
      | none =>
        exact .inr (.inr (.inr (.inr (.inr (.inr ⟨rfl, firstBusy_none hf,
          by simp [State.turn, hw, he, hf, State.begin]⟩)))))
      | some k =>
        obtain ⟨-, x, hx, hb⟩ := firstBusy_some hf
        exact .inr (.inr (.inr (.inr (.inr (.inl ⟨k, x, rfl, by simpa using hx, hb,
          by simp [State.turn, hw, he, hf, State.begin]⟩)))))

/-! ### The step, by its turn -/

theorem step_run {a : Access} {s' : State} (h : s.turn = .run a s') : step s = exec (decodeAccess a) s' := by
  simp [step, h]

theorem step_complete {k : Nat} {s' : State} (h : s.turn = .complete k s') : step s = .next (s'.engineMoves k) := by
  simp [step, h]

theorem step_reset {k : Nat} {s' : State} (h : s.turn = .reset k s') : step s = .next (s'.resetInst k) := by
  simp [step, h]

theorem step_resetAll {s' : State} (h : s.turn = .resetAll s') : step s = .next s'.resetInsts := by
  simp [step, h]

theorem step_pass {s' : State} (h : s.turn = .pass s') : step s = .next s' := by
  simp [step, h]

end Sys2Proof.Machine
end

