-- ==== Sys2Proof/Laws/Commands.lean ====
section
/-! SUPPORT. Everything an issue step and an engine's move can do, each said once. -/

namespace Sys2Proof.Machine

/-- The four ways an engine moves. -/
theorem engine_eq (k : Nat) (x : Inst) : x.engine k =
    match x.pendOp with
    | .none => x
    | .start => x.completeStart (Config.initOk k x.draws)
    | .update => x.completeUpdate Config.cipher
    | .final => x.completeFinal Config.cipher := rfl

/-- No engine's move reads or writes KEY, IV or DIN. -/
theorem engine_inputs (k : Nat) (x : Inst) (key iv din : Quad Word) :
    ({ x with key := key, iv := iv, din := din } : Inst).engine k
      = { x.engine k with key := key, iv := iv, din := din } := by
  rw [engine_eq, engine_eq]
  cases hp : x.pendOp <;> simp only [Inst.completeStart]
  · simp [hp]
  · split <;> rfl
  · rfl
  · rfl

/-- No issue step writes KEY, IV or DIN. -/
theorem issue_inputs (c : Command) (x : Inst) :
    (x.issue c).key = x.key ∧ (x.issue c).iv = x.iv ∧ (x.issue c).din = x.din := by
  cases c <;> simp only [Inst.issue, Inst.issueStart, Inst.issueUpdate, Inst.issueFinal, Inst.issueIllegal]
  all_goals (repeat' split)
  all_goals simp

/-- A mode code selects its mode. -/
@[simp] theorem modeOfCode_modeCode (md : Mode) : modeOfCode (modeCode md) = some md := by
  cases md <;> rfl

/-- Only a mode's own code selects it. -/
theorem modeOfCode_some {m : BitVec 8} {md : Mode} (h : modeOfCode m = some md) : m = modeCode md := by
  unfold modeOfCode at h
  split_ifs at h with h0 h1 <;> cases h <;> assumption

/-- The bound of UPDATE as a number (R137). -/
theorem updateLimit_lt {c : Word} : updateLimit < c ↔ 2 ^ 32 - 48 < c.toNat := by
  simp [updateLimit, BitVec.lt_def]

/-- The counter one block on does not wrap. -/
theorem toNat_add_block {c : Word} (h : c.toNat ≤ 2 ^ 32 - 32) : (c + 16#32).toNat = c.toNat + 16 := by
  simp [BitVec.toNat_add]
  omega

/-- Everything an issued command can do: a refusal that writes ERR alone, the refusal of an unknown
mode, or the acceptance of START, UPDATE or FINAL. -/
theorem issue_cases (c : Command) (x : Inst) :
    (∃ e, (e = .sequenceError ∨ e = .illegalCmd ∨ e = .lengthError) ∧ x.issue c = { x with err := e })
    ∨ (∃ m, c = .start m ∧ x.active = false ∧ modeOfCode m = none
        ∧ x.issue c = { x.clearOutput with err := .unsupportedMode })
    ∨ (∃ md, c = .start (modeCode md) ∧ x.active = false ∧ x.issue c = x.clearOutput.acceptStart md)
    ∨ (c = .update ∧ x.active = true ∧ x.outCount.toNat ≤ 2 ^ 32 - 48
        ∧ x.issue c = { x with err := .ok, outValid := false, inL := unpackBlock x.din, pendOp := .update })
    ∨ (∃ n, c = .final n ∧ x.active = true ∧ x.issue c =
        { x with err := .ok, outValid := false, inL := padBlock n.toNat (unpackBlock x.din), pendOp := .final }) := by
  cases c with
  | start m =>
    simp only [Inst.issue, Inst.issueStart]
    by_cases ha : x.active = true
    · exact .inl ⟨_, .inl rfl, by rw [if_pos ha]; rfl⟩
    · rw [if_neg ha]
      simp only [Bool.not_eq_true] at ha
      cases hm : modeOfCode m with
      | none => exact .inr (.inl ⟨m, rfl, ha, hm, rfl⟩)
      | some md =>
        obtain rfl := modeOfCode_some hm
        exact .inr (.inr (.inl ⟨md, rfl, ha, rfl⟩))
  | update =>
    simp only [Inst.issue, Inst.issueUpdate]
    cases ha : x.active
    · exact .inl ⟨_, .inl rfl, by simp [Inst.refuse, ha]⟩
    · by_cases hc : updateLimit < x.outCount
      · exact .inl ⟨_, .inr (.inr rfl), by simp [hc, Inst.refuse, ha]⟩
      · exact .inr (.inr (.inr (.inl ⟨trivial, rfl, Nat.le_of_not_lt (mt updateLimit_lt.mpr hc), by simp [hc]⟩)))
  | final n =>
    simp only [Inst.issue, Inst.issueFinal]
    cases ha : x.active
    · exact .inl ⟨_, .inl rfl, by simp [Inst.refuse, ha]⟩
    · exact .inr (.inr (.inr (.inr ⟨n, rfl, rfl, by simp⟩)))
  | illegal w => exact .inl ⟨_, .inr (.inl rfl), rfl⟩

/-- What a command leaves in flight, nothing. -/
@[simp] theorem perform_busy (k : Nat) (x : Inst) (i : Issue) : (x.perform k i).busy = false := engine_not_busy _ _

end Sys2Proof.Machine
end

