-- ==== Sys2Proof/Laws/Decode.lean ====
section
/-! SUPPORT. Command words: each opcode's check says that the word is that command's own. -/

namespace Sys2Proof

theorem decodeWord_startWord : ∀ m : BitVec 8, decodeWord (startWord m) = .start m := by decide

theorem decodeWord_finalWord : ∀ n : BitVec 4, decodeWord (finalWord n) = .final n := by decide

theorem startWord_check : ∀ m : BitVec 8, opField (startWord m) = 1#4 ∧ startWord m &&& rsvStart = 0#32 := by decide

theorem finalWord_check : ∀ n : BitVec 4, opField (finalWord n) = 3#4 ∧ finalWord n &&& rsvFinal = 0#32 := by decide

/-- R72 and R77 agree on START: opcode 1 with its must-be-zero bits clear is `0x1 | m << 8`. -/
theorem startCheck_iff (w : Word) : (opField w = 1#4 ∧ w &&& rsvStart = 0#32) ↔ w = startWord (modeField w) := by
  refine ⟨fun ⟨h1, h2⟩ => BitVec.eq_of_getLsbD_eq fun i hi => ?_, fun h => by rw [h]; exact startWord_check _⟩
  have a := congrArg (fun v => v.getLsbD i) h1
  have b := congrArg (fun v => v.getLsbD i) h2
  simp only [opField, rsvStart, startWord, modeField, BitVec.getLsbD_extractLsb', BitVec.getLsbD_and,
    BitVec.getLsbD_or, BitVec.getLsbD_shiftLeft, BitVec.getLsbD_setWidth] at a b ⊢
  interval_cases i <;> simp_all

/-- R72 and R77 agree on UPDATE. -/
theorem updateCheck_iff (w : Word) : (opField w = 2#4 ∧ w &&& rsvUpdate = 0#32) ↔ w = updateWord := by
  refine ⟨fun ⟨h1, h2⟩ => BitVec.eq_of_getLsbD_eq fun i hi => ?_, fun h => by rw [h]; decide⟩
  have a := congrArg (fun v => v.getLsbD i) h1
  have b := congrArg (fun v => v.getLsbD i) h2
  simp only [opField, rsvUpdate, updateWord, BitVec.getLsbD_extractLsb', BitVec.getLsbD_and] at a b ⊢
  interval_cases i <;> simp_all

/-- R72 and R77 agree on FINAL. -/
theorem finalCheck_iff (w : Word) : (opField w = 3#4 ∧ w &&& rsvFinal = 0#32) ↔ w = finalWord (nbytesField w) := by
  refine ⟨fun ⟨h1, h2⟩ => BitVec.eq_of_getLsbD_eq fun i hi => ?_, fun h => by rw [h]; exact finalWord_check _⟩
  have a := congrArg (fun v => v.getLsbD i) h1
  have b := congrArg (fun v => v.getLsbD i) h2
  simp only [opField, rsvFinal, finalWord, nbytesField, BitVec.getLsbD_extractLsb', BitVec.getLsbD_and,
    BitVec.getLsbD_or, BitVec.getLsbD_shiftLeft, BitVec.getLsbD_setWidth] at a b ⊢
  interval_cases i <;> simp_all

/-- The legal words of R77 are those that pass a check of R131. -/
theorem legalWord_iff (w : Word) : legalWord w = true ↔
    w = startWord (modeField w) ∨ w = updateWord ∨ w = finalWord (nbytesField w) := by
  simp [legalWord, startWord, updateWord, finalWord, modeField, nbytesField, or_assoc]

/-- Everything a word can decode to (R76: exactly one). -/
theorem decodeWord_cases (w : Word) :
    (w = startWord (modeField w) ∧ decodeWord w = .start (modeField w))
    ∨ (w = updateWord ∧ decodeWord w = .update)
    ∨ (w = finalWord (nbytesField w) ∧ decodeWord w = .final (nbytesField w))
    ∨ (legalWord w = false ∧ decodeWord w = .illegal w) := by
  cases hl : legalWord w
  · refine .inr (.inr (.inr ⟨rfl, ?_⟩))
    have h : ¬ _ := fun h => absurd ((legalWord_iff w).mpr h) (by simp [hl])
    rw [← startCheck_iff, ← updateCheck_iff, ← finalCheck_iff] at h
    simp only [decodeWord]
    split_ifs <;> simp_all
  · rcases (legalWord_iff w).mp hl with h | h | h
    · exact .inl ⟨h, by simp [decodeWord, (startCheck_iff w).mpr h]⟩
    · exact .inr (.inl ⟨h, by simp [decodeWord, (updateCheck_iff w).mpr h]⟩)
    · exact .inr (.inr (.inl ⟨h, by simp [decodeWord, (finalCheck_iff w).mpr h]⟩))

end Sys2Proof
end

