-- ==== Sys2Proof/Laws/Exec.lean ====
section
/-! SUPPORT. Everything an instruction can do, said once for all of them. -/

namespace Sys2Proof.Machine

/-- The command an instruction issues, if it writes CMD. -/
def commandOf : Instr → Option Command
  | .start _ m => some (.start m)
  | .update _ => some .update
  | .final _ n => some (.final n)
  | .illegal _ w => some (.illegal w)
  | .wrCmd _ v => some (decodeWord v)
  | _ => none

/-- If an instruction answers `next t`, its instance is there, and it answered without any change, or wrote registers only
the host writes, or issued its command to an idle instance, or is held by a busy one. -/
theorem exec_effect {i : Instr} {s t : State} (h : exec i s = .next t) :
    ∃ x, s.insts[instrTarget i]? = some x
      ∧ ((commandOf i = none ∧ ∃ r, r ≠ .held ∧ t = s.respond r)
        ∨ (commandOf i = none ∧ ∃ key iv din,
            t = (s.setInst (instrTarget i) { x with key := key, iv := iv, din := din }).respond .written)
        ∨ (∃ c, commandOf i = some c ∧ x.busy = false
            ∧ t = (s.setInst (instrTarget i) (x.issue c)).respond .written)
        ∨ (∃ a, x.busy = true ∧ a.k = instrTarget i ∧ holdable a = true ∧ t = s.hold a)) := by
  cases i
  case start k m =>
    obtain ⟨x, hx, ⟨hb, rfl⟩ | ⟨hb, rfl⟩⟩ := cmdWrite_next h
    · exact ⟨x, hx, .inr (.inr (.inr ⟨_, hb, rfl, rfl, rfl⟩))⟩
    · exact ⟨x, hx, .inr (.inr (.inl ⟨_, rfl, hb, rfl⟩))⟩
  case update k =>
    obtain ⟨x, hx, ⟨hb, rfl⟩ | ⟨hb, rfl⟩⟩ := cmdWrite_next h
    · exact ⟨x, hx, .inr (.inr (.inr ⟨_, hb, rfl, rfl, rfl⟩))⟩
    · exact ⟨x, hx, .inr (.inr (.inl ⟨_, rfl, hb, rfl⟩))⟩
  case final k n =>
    obtain ⟨x, hx, ⟨hb, rfl⟩ | ⟨hb, rfl⟩⟩ := cmdWrite_next h
    · exact ⟨x, hx, .inr (.inr (.inr ⟨_, hb, rfl, rfl, rfl⟩))⟩
    · exact ⟨x, hx, .inr (.inr (.inl ⟨_, rfl, hb, rfl⟩))⟩
  case illegal k w =>
    obtain ⟨x, hx, ⟨hb, rfl⟩ | ⟨hb, rfl⟩⟩ := cmdWrite_next h
    · exact ⟨x, hx, .inr (.inr (.inr ⟨_, hb, rfl, rfl, rfl⟩))⟩
    · exact ⟨x, hx, .inr (.inr (.inl ⟨_, rfl, hb, rfl⟩))⟩
  case wrCmd k v =>
    obtain ⟨x, hx, ⟨hb, rfl⟩ | ⟨hb, rfl⟩⟩ := cmdWrite_next h
    · exact ⟨x, hx, .inr (.inr (.inr ⟨_, hb, rfl, rfl, rfl⟩))⟩
    · exact ⟨x, hx, .inr (.inr (.inl ⟨_, rfl, hb, rfl⟩))⟩
  case rdCmd | rdStatus | rdOutCount | rdKey0 | rdKey1 | rdKey2 | rdKey3 | rdIv0 | rdIv1 | rdIv2 | rdIv3
      | rdDin0 | rdDin1 | rdDin2 | rdDin3 =>
    obtain ⟨x, hx, rfl⟩ := readInst_next h
    exact ⟨x, hx, .inl ⟨rfl, _, by simp, rfl⟩⟩
  case wrStatus | wrOutCount | wrDout0 | wrDout1 | wrDout2 | wrDout3 =>
    obtain ⟨x, hx, rfl⟩ := ignoreWrite_next h
    exact ⟨x, hx, .inl ⟨rfl, _, by simp, rfl⟩⟩
  case rsvdOffset | badSizeOrAlign =>
    obtain ⟨x, hx, rfl⟩ := busErrorAt_next h
    exact ⟨x, hx, .inl ⟨rfl, _, by simp, rfl⟩⟩
  case wrKey0 | wrKey1 | wrKey2 | wrKey3 | wrIv0 | wrIv1 | wrIv2 | wrIv3 | wrDin0 | wrDin1 | wrDin2 | wrDin3 =>
    obtain ⟨x, hx, rfl⟩ := writeInst_next h
    exact ⟨x, hx, .inr (.inl ⟨rfl, _, _, _, rfl⟩)⟩
  case rdDout0 | rdDout1 | rdDout2 | rdDout3 =>
    obtain ⟨x, hx, ⟨hb, rfl⟩ | ⟨hb, rfl⟩⟩ := doutRead_next h
    · exact ⟨x, hx, .inr (.inr (.inr ⟨_, hb, rfl, rfl, rfl⟩))⟩
    · exact ⟨x, hx, .inl ⟨rfl, _, by simp, rfl⟩⟩

/-- An instruction whose instance is there answers a next state. -/
theorem exec_total {i : Instr} {s : State} {x : Inst} (h : s.insts[instrTarget i]? = some x) :
    ∃ t, exec i s = .next t := by
  cases i
  case start | update | final | illegal | wrCmd =>
    cases hb : x.busy
    · exact ⟨_, cmdWrite_idle h hb _ _⟩
    · exact ⟨_, cmdWrite_busy h hb _ _⟩
  case rdCmd | rdStatus | rdOutCount | rdKey0 | rdKey1 | rdKey2 | rdKey3 | rdIv0 | rdIv1 | rdIv2 | rdIv3
      | rdDin0 | rdDin1 | rdDin2 | rdDin3 => exact ⟨_, readInst_some h _⟩
  case wrStatus | wrOutCount | wrDout0 | wrDout1 | wrDout2 | wrDout3 => exact ⟨_, ignoreWrite_some h⟩
  case rsvdOffset | badSizeOrAlign => exact ⟨_, busErrorAt_some h⟩
  case wrKey0 | wrKey1 | wrKey2 | wrKey3 | wrIv0 | wrIv1 | wrIv2 | wrIv3 | wrDin0 | wrDin1 | wrDin2 | wrDin3 =>
    exact ⟨_, writeInst_some h _⟩
  case rdDout0 | rdDout1 | rdDout2 | rdDout3 =>
    cases hb : x.busy
    · exact ⟨_, doutRead_idle h hb _ _⟩
    · exact ⟨_, doutRead_busy h hb _ _⟩

/-- The number of instances never changes in an instruction. -/
theorem exec_length {i : Instr} {s t : State} (h : exec i s = .next t) : t.insts.length = s.insts.length := by
  obtain ⟨x, -, ⟨-, r, -, rfl⟩ | ⟨-, key, iv, din, rfl⟩ | ⟨c, -, -, rfl⟩ | ⟨a, -, -, -, rfl⟩⟩ := exec_effect h <;> simp

end Sys2Proof.Machine
end

