-- ==== Sys2Proof/Laws/PerInstr.lean ====
section
/-! SUPPORT. Statements made one instruction at a time. TableMatch: the encoding of an instruction is what its row of
spec/opcode_table.json gives: for a command its mask and match, for an access its offset and direction. -/

namespace Sys2Proof.Laws.TableMatch

/-- The encoding is a command word for instance `k` whose bits under `mask` are `mtch`. -/
def CmdRow (i : Instr) (k : Nat) (mask mtch : Word) : Prop := ∃ w, encode i = .cmd32 k w ∧ w &&& mask = mtch

/-- The encoding is a 4-byte access to instance `k` at offset `off`. -/
def BusRow (i : Instr) (k : Nat) (off : BitVec 8) (dir : Dir) : Prop := encode i = .bus32 ⟨k, off, 4, dir⟩

/-- What the row of each instruction says of its encoding. -/
def Statement : Instr → Prop
  | .start k m => CmdRow (.start k m) k 0xFFFF00FF#32 0x00000001#32
  | .update k => CmdRow (.update k) k 0xFFFFFFFF#32 0x00000002#32
  | .final k n => CmdRow (.final k n) k 0xFFF0FFFF#32 0x00000003#32
  | .wrCmd k v => BusRow (.wrCmd k v) k 0x00#8 (.write v)
  | .rdCmd k => BusRow (.rdCmd k) k 0x00#8 .read
  | .rdStatus k => BusRow (.rdStatus k) k 0x04#8 .read
  | .wrStatus k v => BusRow (.wrStatus k v) k 0x04#8 (.write v)
  | .rdOutCount k => BusRow (.rdOutCount k) k 0x08#8 .read
  | .wrOutCount k v => BusRow (.wrOutCount k v) k 0x08#8 (.write v)
  | .wrKey0 k v => BusRow (.wrKey0 k v) k 0x10#8 (.write v)
  | .rdKey0 k => BusRow (.rdKey0 k) k 0x10#8 .read
  | .wrKey1 k v => BusRow (.wrKey1 k v) k 0x14#8 (.write v)
  | .rdKey1 k => BusRow (.rdKey1 k) k 0x14#8 .read
  | .wrKey2 k v => BusRow (.wrKey2 k v) k 0x18#8 (.write v)
  | .rdKey2 k => BusRow (.rdKey2 k) k 0x18#8 .read
  | .wrKey3 k v => BusRow (.wrKey3 k v) k 0x1C#8 (.write v)
  | .rdKey3 k => BusRow (.rdKey3 k) k 0x1C#8 .read
  | .wrIv0 k v => BusRow (.wrIv0 k v) k 0x20#8 (.write v)
  | .rdIv0 k => BusRow (.rdIv0 k) k 0x20#8 .read
  | .wrIv1 k v => BusRow (.wrIv1 k v) k 0x24#8 (.write v)
  | .rdIv1 k => BusRow (.rdIv1 k) k 0x24#8 .read
  | .wrIv2 k v => BusRow (.wrIv2 k v) k 0x28#8 (.write v)
  | .rdIv2 k => BusRow (.rdIv2 k) k 0x28#8 .read
  | .wrIv3 k v => BusRow (.wrIv3 k v) k 0x2C#8 (.write v)
  | .rdIv3 k => BusRow (.rdIv3 k) k 0x2C#8 .read
  | .wrDin0 k v => BusRow (.wrDin0 k v) k 0x30#8 (.write v)
  | .rdDin0 k => BusRow (.rdDin0 k) k 0x30#8 .read
  | .wrDin1 k v => BusRow (.wrDin1 k v) k 0x34#8 (.write v)
  | .rdDin1 k => BusRow (.rdDin1 k) k 0x34#8 .read
  | .wrDin2 k v => BusRow (.wrDin2 k v) k 0x38#8 (.write v)
  | .rdDin2 k => BusRow (.rdDin2 k) k 0x38#8 .read
  | .wrDin3 k v => BusRow (.wrDin3 k v) k 0x3C#8 (.write v)
  | .rdDin3 k => BusRow (.rdDin3 k) k 0x3C#8 .read
  | .rdDout0 k => BusRow (.rdDout0 k) k 0x40#8 .read
  | .wrDout0 k v => BusRow (.wrDout0 k v) k 0x40#8 (.write v)
  | .rdDout1 k => BusRow (.rdDout1 k) k 0x44#8 .read
  | .wrDout1 k v => BusRow (.wrDout1 k v) k 0x44#8 (.write v)
  | .rdDout2 k => BusRow (.rdDout2 k) k 0x48#8 .read
  | .wrDout2 k v => BusRow (.wrDout2 k v) k 0x48#8 (.write v)
  | .rdDout3 k => BusRow (.rdDout3 k) k 0x4C#8 .read
  | .wrDout3 k v => BusRow (.wrDout3 k v) k 0x4C#8 (.write v)
  | .rsvdOffset k off dir => (Instr.rsvdOffset k off dir).wf = true →
    BusRow (.rsvdOffset k off dir) k off dir
      ∧ (off = 0x0C#8 ∨ (0x50#8 ≤ off ∧ off ≤ 0xFC#8 ∧ off.toNat % 4 = 0))
  | .badSizeOrAlign k off size dir => (Instr.badSizeOrAlign k off size dir).wf = true →
    encode (.badSizeOrAlign k off size dir) = .bus32 ⟨k, off, size, dir⟩ ∧ (size ≠ 4 ∨ off.toNat % 4 ≠ 0)
  | .illegal k w => (Instr.illegal k w).wf = true →
    encode (.illegal k w) = .cmd32 k w
      ∧ ((opField w = 0#4 ∨ 4#4 ≤ opField w) ∨ (opField w = 1#4 ∧ w &&& 0xFFFF00F0#32 ≠ 0#32)
        ∨ (opField w = 2#4 ∧ w &&& 0xFFFFFFF0#32 ≠ 0#32) ∨ (opField w = 3#4 ∧ w &&& 0xFFF0FFF0#32 ≠ 0#32))

theorem start_mask (m : BitVec 8) : startWord m &&& 0xFFFF00FF#32 = 0x00000001#32 := by
  apply BitVec.eq_of_getLsbD_eq
  intro i hi
  simp only [startWord, BitVec.getLsbD_and, BitVec.getLsbD_or, BitVec.getLsbD_shiftLeft, BitVec.getLsbD_setWidth]
  interval_cases i <;> simp

theorem final_mask (n : BitVec 4) : finalWord n &&& 0xFFF0FFFF#32 = 0x00000003#32 := by
  revert n
  decide

theorem reserved_row {k : Nat} {off : BitVec 8} {dir : Dir} (h : (Instr.rsvdOffset k off dir).wf = true) :
    off = 0x0C#8 ∨ (0x50#8 ≤ off ∧ off ≤ 0xFC#8 ∧ off.toNat % 4 = 0) := by
  simp only [Instr.wf, reservedOffset, Bool.and_eq_true, beq_iff_eq, Bool.or_eq_true, decide_eq_true_eq] at h
  have := off.isLt
  rcases h.2 with h2 | h2
  · exact .inl (BitVec.eq_of_toNat_eq h2)
  · exact .inr ⟨h2, by simp only [BitVec.le_def, BitVec.toNat_ofNat]; omega, h.1⟩

theorem illegal_word {w : Word} (h : legalWord w = false) :
    (opField w = 0#4 ∨ 4#4 ≤ opField w) ∨ (opField w = 1#4 ∧ w &&& 0xFFFF00F0#32 ≠ 0#32)
      ∨ (opField w = 2#4 ∧ w &&& 0xFFFFFFF0#32 ≠ 0#32) ∨ (opField w = 3#4 ∧ w &&& 0xFFF0FFF0#32 ≠ 0#32) := by
  have h1 := mt (fun c => (legalWord_iff w).mpr (.inl ((startCheck_iff w).mp c))) (by simp [h])
  have h2 := mt (fun c => (legalWord_iff w).mpr (.inr (.inl ((updateCheck_iff w).mp c)))) (by simp [h])
  have h3 := mt (fun c => (legalWord_iff w).mpr (.inr (.inr ((finalCheck_iff w).mp c)))) (by simp [h])
  simp only [rsvStart, rsvUpdate, rsvFinal, not_and] at h1 h2 h3
  have hop : ∀ o : BitVec 4, (o = 0#4 ∨ 4#4 ≤ o) ∨ o = 1#4 ∨ o = 2#4 ∨ o = 3#4 := by decide
  rcases hop (opField w) with ho | ho | ho | ho
  · exact .inl ho
  · exact .inr (.inl ⟨ho, h1 ho⟩)
  · exact .inr (.inr (.inl ⟨ho, h2 ho⟩))
  · exact .inr (.inr (.inr ⟨ho, h3 ho⟩))

theorem start (k : Nat) (m : BitVec 8) : Statement (.start k m) := ⟨_, rfl, start_mask m⟩
theorem update (k : Nat) : Statement (.update k) := ⟨_, rfl, by decide⟩
theorem final (k : Nat) (n : BitVec 4) : Statement (.final k n) := ⟨_, rfl, final_mask n⟩
theorem wrCmd (k : Nat) (v : Word) : Statement (.wrCmd k v) := rfl
theorem rdCmd (k : Nat) : Statement (.rdCmd k) := rfl
theorem rdStatus (k : Nat) : Statement (.rdStatus k) := rfl
theorem wrStatus (k : Nat) (v : Word) : Statement (.wrStatus k v) := rfl
theorem rdOutCount (k : Nat) : Statement (.rdOutCount k) := rfl
theorem wrOutCount (k : Nat) (v : Word) : Statement (.wrOutCount k v) := rfl
theorem wrKey0 (k : Nat) (v : Word) : Statement (.wrKey0 k v) := rfl
theorem rdKey0 (k : Nat) : Statement (.rdKey0 k) := rfl
theorem wrKey1 (k : Nat) (v : Word) : Statement (.wrKey1 k v) := rfl
theorem rdKey1 (k : Nat) : Statement (.rdKey1 k) := rfl
theorem wrKey2 (k : Nat) (v : Word) : Statement (.wrKey2 k v) := rfl
theorem rdKey2 (k : Nat) : Statement (.rdKey2 k) := rfl
theorem wrKey3 (k : Nat) (v : Word) : Statement (.wrKey3 k v) := rfl
theorem rdKey3 (k : Nat) : Statement (.rdKey3 k) := rfl
theorem wrIv0 (k : Nat) (v : Word) : Statement (.wrIv0 k v) := rfl
theorem rdIv0 (k : Nat) : Statement (.rdIv0 k) := rfl
theorem wrIv1 (k : Nat) (v : Word) : Statement (.wrIv1 k v) := rfl
theorem rdIv1 (k : Nat) : Statement (.rdIv1 k) := rfl
theorem wrIv2 (k : Nat) (v : Word) : Statement (.wrIv2 k v) := rfl
theorem rdIv2 (k : Nat) : Statement (.rdIv2 k) := rfl
theorem wrIv3 (k : Nat) (v : Word) : Statement (.wrIv3 k v) := rfl
theorem rdIv3 (k : Nat) : Statement (.rdIv3 k) := rfl
theorem wrDin0 (k : Nat) (v : Word) : Statement (.wrDin0 k v) := rfl
theorem rdDin0 (k : Nat) : Statement (.rdDin0 k) := rfl
theorem wrDin1 (k : Nat) (v : Word) : Statement (.wrDin1 k v) := rfl
theorem rdDin1 (k : Nat) : Statement (.rdDin1 k) := rfl
theorem wrDin2 (k : Nat) (v : Word) : Statement (.wrDin2 k v) := rfl
theorem rdDin2 (k : Nat) : Statement (.rdDin2 k) := rfl
theorem wrDin3 (k : Nat) (v : Word) : Statement (.wrDin3 k v) := rfl
theorem rdDin3 (k : Nat) : Statement (.rdDin3 k) := rfl
theorem rdDout0 (k : Nat) : Statement (.rdDout0 k) := rfl
theorem wrDout0 (k : Nat) (v : Word) : Statement (.wrDout0 k v) := rfl
theorem rdDout1 (k : Nat) : Statement (.rdDout1 k) := rfl
theorem wrDout1 (k : Nat) (v : Word) : Statement (.wrDout1 k v) := rfl
theorem rdDout2 (k : Nat) : Statement (.rdDout2 k) := rfl
theorem wrDout2 (k : Nat) (v : Word) : Statement (.wrDout2 k v) := rfl
theorem rdDout3 (k : Nat) : Statement (.rdDout3 k) := rfl
theorem wrDout3 (k : Nat) (v : Word) : Statement (.wrDout3 k v) := rfl
theorem rsvdOffset (k : Nat) (off : BitVec 8) (dir : Dir) : Statement (.rsvdOffset k off dir) := fun h => ⟨rfl, reserved_row h⟩
theorem badSizeOrAlign (k : Nat) (off : BitVec 8) (size : Nat) (dir : Dir) : Statement (.badSizeOrAlign k off size dir) := fun h => ⟨rfl, by simpa [Instr.wf, badAccess] using h⟩
theorem illegal (k : Nat) (w : Word) : Statement (.illegal k w) := fun h => ⟨rfl, illegal_word (by simpa [Instr.wf] using h)⟩

end Sys2Proof.Laws.TableMatch
end

