-- ==== Sys2Proof/Laws/Step.lean ====
section
/-! SUPPORT. Everything a step can do to an instance, said once; runs. -/

namespace Sys2Proof.Machine

/-! ### Decoded accesses -/

/-- What holds of both branches holds of the choice. -/
theorem ite_keeps {P : Instr → Prop} {c : Prop} [Decidable c] {a b : Instr} (ha : P a) (hb : P b) :
    P (if c then a else b) := by
  split
  · exact ha
  · exact hb

theorem byDir_keeps {P : Instr → Prop} {dir : Dir} {wr : Word → Instr} {rd : Instr} (hw : ∀ v, P (wr v)) (hr : P rd) :
    P (byDir dir wr rd) := by
  cases dir
  · exact hr
  · exact hw _

theorem decodeAccess_target (a : Access) : instrTarget (decodeAccess a) = a.k := by
  obtain ⟨k, off, size, dir⟩ := a
  unfold decodeAccess decodeRegister
  repeat' apply ite_keeps (P := fun i => instrTarget i = k)
  all_goals first
    | exact byDir_keeps (P := fun i => instrTarget i = k) (fun _ => rfl) rfl
    | rfl

/-- Only offset 0x00 decodes to a write of CMD. -/
theorem decodeRegister_command {k : Nat} {off : BitVec 8} (dir : Dir) (h : off ≠ 0x00#8) :
    commandOf (decodeRegister k off dir) = none := by
  unfold decodeRegister
  rw [if_neg h]
  repeat' apply ite_keeps (P := fun i => commandOf i = none)
  all_goals first
    | exact byDir_keeps (P := fun i => commandOf i = none) (fun _ => rfl) rfl
    | rfl

/-- A command issued by an access is the one its data word decodes to, and the access is a 4-byte write of CMD. -/
theorem decodeAccess_command {a : Access} {c : Command} (h : commandOf (decodeAccess a) = some c) :
    ∃ v, a = ⟨a.k, 0x00, 4, .write v⟩ ∧ c = decodeWord v := by
  obtain ⟨k, off, size, dir⟩ := a
  unfold decodeAccess at h
  split at h
  · cases h
  · next hbad =>
    simp only [badAccess, Bool.or_eq_true, bne_iff_ne, ne_eq, not_or, not_not] at hbad
    by_cases h0 : off = 0x00#8
    · subst h0
      cases dir with
      | read => simp [decodeRegister, byDir, commandOf] at h
      | write v =>
        simp only [decodeRegister, byDir, if_true, commandOf, Option.some.injEq] at h
        exact ⟨v, by simp [hbad.1], h.symm⟩
    · rw [decodeRegister_command dir h0] at h
      cases h

theorem decodeAccess_cmdWrite (k : Nat) (v : Word) : decodeAccess ⟨k, 0x00, 4, .write v⟩ = .wrCmd k v := by
  simp [decodeAccess, badAccess, decodeRegister, byDir]

theorem decodeAccess_doutRead (k : Nat) {j : Nat} (hj : j < 4) :
    decodeAccess ⟨k, BitVec.ofNat 8 (0x40 + 4 * j), 4, .read⟩ = rdDoutAt j k := by
  interval_cases j <;> simp [decodeAccess, badAccess, decodeRegister, byDir, rdDoutAt]

theorem exec_rdDoutAt (k : Nat) {j : Nat} (hj : j < 4) (s : State) :
    exec (rdDoutAt j k) s = doutRead k (BitVec.ofNat 8 (0x40 + 4 * j)) (fun x => x.dout.get j) s := by
  interval_cases j <;> rfl

/-- An access that is held is a 4-byte write of CMD or read of a DOUT register. -/
theorem holdable_cases {a : Access} (h : holdable a = true) :
    (∃ v, a = ⟨a.k, 0x00, 4, .write v⟩) ∨ ∃ j < 4, a = ⟨a.k, BitVec.ofNat 8 (0x40 + 4 * j), 4, .read⟩ := by
  obtain ⟨k, off, size, dir⟩ := a
  cases dir with
  | read =>
    simp only [holdable, Bool.and_eq_true, beq_iff_eq, Bool.or_eq_true] at h
    obtain ⟨rfl, ((rfl | rfl) | rfl) | rfl⟩ := h
    · exact .inr ⟨0, by omega, rfl⟩
    · exact .inr ⟨1, by omega, rfl⟩
    · exact .inr ⟨2, by omega, rfl⟩
    · exact .inr ⟨3, by omega, rfl⟩
  | write v =>
    simp only [holdable, Bool.and_eq_true, beq_iff_eq] at h
    obtain ⟨rfl, rfl⟩ := h
    exact .inl ⟨v, rfl⟩

/-! ### Lists of instances -/

theorem modify_eq_set {l : List Inst} {k : Nat} {x : Inst} (h : l[k]? = some x) (f : Inst → Inst) :
    l.modify k f = l.set k (f x) := by
  apply List.ext_getElem?
  intro j
  simp only [List.getElem?_modify, List.getElem?_set]
  split
  · next e => subst e; rw [h]; simp [(List.getElem?_eq_some_iff.mp h).1]
  · simp

theorem set_at {l : List Inst} {k : Nat} {x : Inst} (h : l[k]? = some x) (y : Inst) : (l.set k y)[k]? = some y := by
  simp [(List.getElem?_eq_some_iff.mp h).1]

theorem index_lt {l : List Inst} {k : Nat} {x : Inst} (h : l[k]? = some x) : k < l.length :=
  (List.getElem?_eq_some_iff.mp h).1

/-! ### What a step does -/

/-- Everything a step can do to instance `k`: nothing or a host write of KEY, IV or DIN; the issue of a command while idle;
the engine's move; a reset. -/
theorem step_inst_cases {s t : State} {k : Nat} {x y : Inst} (h : step s = .next t) (hx : s.insts[k]? = some x)
    (hy : t.insts[k]? = some y) :
    (s.issues? k = none ∧ ∃ key iv din, y = { x with key := key, iv := iv, din := din })
    ∨ (∃ c, s.issues? k = some ⟨c, x.key, x.iv, x.din⟩ ∧ x.busy = false ∧ y = x.issue c)
    ∨ (s.issues? k = none ∧ s.completes k x.pendOp ∧ y = x.engine k)
    ∨ (s.issues? k = none ∧ s.resets k ∧ y = x.resetEvent) := by
  have run : ∀ (a : Access) (s' : State), s.turn = .run a s' → s'.insts = s.insts →
      exec (decodeAccess a) s' = .next t →
      (s.issues? k = none ∧ ∃ key iv din, y = { x with key := key, iv := iv, din := din })
      ∨ (∃ c, s.issues? k = some ⟨c, x.key, x.iv, x.din⟩ ∧ x.busy = false ∧ y = x.issue c) := by
    intro a s' ht hs he
    obtain ⟨z, hz, hc⟩ := exec_effect he
    rw [decodeAccess_target, hs] at hz
    have none_of : commandOf (decodeAccess a) = none → s.issues? k = none := by
      intro hn
      simp only [State.issues?, ht, hx]
      split
      · next v hv =>
        rw [if_neg]
        rintro ⟨-, ho, hsz, -⟩
        obtain ⟨k', off, size, dir⟩ := a
        simp only at hv ho hsz
        subst hv ho hsz
        rw [show (0x00#8 : BitVec 8) = 0x00 from rfl, decodeAccess_cmdWrite] at hn
        cases hn
      · rfl
    have busy_none : ∀ z, s.insts[a.k]? = some z → z.busy = true → s.issues? k = none := by
      intro z hz hb
      simp only [State.issues?, ht, hx]
      split
      · rw [if_neg]
        rintro ⟨rfl, -, -, hi⟩
        rw [hz] at hx
        cases hx
        simp [hb] at hi
      · rfl
    rcases hc with ⟨hn, r, -, rfl⟩ | ⟨hn, key, iv, din, rfl⟩ | ⟨c, hcmd, hb, rfl⟩ | ⟨b, hb, -, -, rfl⟩
    · refine .inl ⟨none_of hn, x.key, x.iv, x.din, ?_⟩
      simp [hs, hx] at hy
      simp [hy]
    · refine .inl ⟨none_of hn, ?_⟩
      by_cases hk : a.k = k
      · subst hk
        rw [hx] at hz
        cases hz
        simp [hs, decodeAccess_target, set_at hx] at hy
        exact ⟨key, iv, din, hy.symm⟩
      · simp [hs, decodeAccess_target, List.getElem?_set_ne hk, hx] at hy
        exact ⟨x.key, x.iv, x.din, by simp [hy]⟩
    · obtain ⟨v, ha, rfl⟩ := decodeAccess_command hcmd
      by_cases hk : a.k = k
      · subst hk
        rw [hx] at hz
        cases hz
        simp [hs, decodeAccess_target, set_at hx] at hy
        refine .inr ⟨_, ?_, hb, hy.symm⟩
        rw [ha] at ht
        simp [State.issues?, ht, hx, hb]
      · refine .inl ⟨?_, x.key, x.iv, x.din, ?_⟩
        · simp only [State.issues?, ht, hx]
          split
          · rw [if_neg]
            rintro ⟨hk', -⟩
            exact hk hk'
          · rfl
        · simp [hs, decodeAccess_target, List.getElem?_set_ne hk, hx] at hy
          simp [hy]
    · refine .inl ⟨busy_none z hz hb, x.key, x.iv, x.din, ?_⟩
      simp [hs, hx] at hy
      simp [hy]
  have engine : ∀ (j : Nat) (s' : State), s.turn = .complete j s' → s'.insts = s.insts → t = s'.engineMoves j →
      (s.issues? k = none ∧ ∃ key iv din, y = { x with key := key, iv := iv, din := din })
      ∨ (s.issues? k = none ∧ s.completes k x.pendOp ∧ y = x.engine k) := by
    rintro j s' ht hs rfl
    have hn : s.issues? k = none := by simp [State.issues?, ht]
    by_cases hk : j = k
    · subst hk
      simp [hs, hx] at hy
      exact .inr ⟨hn, ⟨s', x, ht, hx, rfl⟩, hy.symm⟩
    · simp [hs, hx, hk] at hy
      exact .inl ⟨hn, x.key, x.iv, x.din, by simp [hy]⟩
  rcases turn_cases s with ⟨pre, post, a, -, -, -, ht⟩ | ⟨-, ⟨addr, size, dir, es, j, off, -, -, ht⟩
      | ⟨addr, size, dir, es, -, -, ht⟩ | ⟨j, es, -, ht⟩ | ⟨j, es, -, ht⟩ | ⟨es, -, ht⟩ | ⟨j, z, -, -, -, ht⟩
      | ⟨-, -, ht⟩⟩
  · rw [step_run ht] at h
    exact (run _ _ ht rfl h).elim .inl (.inr ∘ .inl)
  · rw [step_run ht] at h
    exact (run _ _ ht rfl h).elim .inl (.inr ∘ .inl)
  · rw [step_pass ht] at h
    cases h
    rw [hx] at hy
    cases hy
    exact .inl ⟨by simp [State.issues?, ht], x.key, x.iv, x.din, rfl⟩
  · rw [step_complete ht] at h
    exact (engine _ _ ht rfl (Host.Outcome.next.inj h).symm).elim .inl (.inr ∘ .inr ∘ .inl)
  · rw [step_reset ht] at h
    cases h
    have hn : s.issues? k = none := by simp [State.issues?, ht]
    by_cases hk : j = k
    · subst hk
      simp [hx] at hy
      exact .inr (.inr (.inr ⟨hn, ⟨_, .inl ht⟩, hy.symm⟩))
    · simp [hx, hk] at hy
      exact .inl ⟨hn, x.key, x.iv, x.din, by simp [hy]⟩
  · rw [step_resetAll ht] at h
    cases h
    simp [hx] at hy
    exact .inr (.inr (.inr ⟨by simp [State.issues?, ht], ⟨_, .inr ht⟩, hy.symm⟩))
  · rw [step_complete ht] at h
    exact (engine _ _ ht rfl (Host.Outcome.next.inj h).symm).elim .inl (.inr ∘ .inr ∘ .inl)
  · rw [step_pass ht] at h
    cases h
    rw [hx] at hy
    cases hy
    exact .inl ⟨by simp [State.issues?, ht], x.key, x.iv, x.din, rfl⟩

/-- No step changes the number of instances. -/
theorem step_length {s t : State} (h : step s = .next t) : t.insts.length = s.insts.length := by
  unfold step at h
  rcases turn_cases s with ⟨pre, post, a, -, -, -, ht⟩ | ⟨-, ⟨addr, size, dir, es, j, off, -, -, ht⟩
      | ⟨addr, size, dir, es, -, -, ht⟩ | ⟨j, es, -, ht⟩ | ⟨j, es, -, ht⟩ | ⟨es, -, ht⟩ | ⟨j, z, -, -, -, ht⟩
      | ⟨-, -, ht⟩⟩ <;> rw [ht] at h <;> simp only at h
  · rw [exec_length h]
  · rw [exec_length h]
  all_goals
    cases h
    simp

/-! ### Runs -/

theorem run_succ {s t : State} (n : Nat) (h : step s = .next t) :
    Host.Core.run core (n + 1) s = Host.Core.run core n t := by
  have h' : core.step s = .next t := h
  simp only [Host.Core.run, h']

theorem run_succ_next {s t : State} {n : Nat} (h : Host.Core.run core (n + 1) s = .next t) :
    ∃ u, step s = .next u ∧ Host.Core.run core n u = .next t := by
  simp only [Host.Core.run] at h
  split at h
  · next u hu => exact ⟨u, hu, h⟩
  · cases h
  · cases h

theorem run_add {s t u : State} (m n : Nat) (h1 : Host.Core.run core m s = .next t)
    (h2 : Host.Core.run core n t = .next u) : Host.Core.run core (m + n) s = .next u := by
  induction m generalizing s with
  | zero => cases h1; simpa using h2
  | succ m ih =>
    obtain ⟨v, hv, hr⟩ := run_succ_next h1
    rw [Nat.succ_add, run_succ _ hv]
    exact ih hr

/-- What every step keeps, every run keeps. -/
theorem run_keeps {P : State → Prop} (hstep : ∀ s t, P s → step s = .next t → P t) {s t : State} {n : Nat} (hs : P s)
    (h : Host.Core.run core n s = .next t) : P t := by
  induction n generalizing s with
  | zero => cases h; exact hs
  | succ n ih =>
    obtain ⟨u, hu, hr⟩ := run_succ_next h
    exact ih (hstep s u hs hu) hr

/-- The words read in a run of two parts. -/
theorem reads_add {s t : State} (m n : Nat) (h : Host.Core.run core m s = .next t) :
    reads (m + n) s = reads m s ++ reads n t := by
  induction m generalizing s with
  | zero => cases h; simp [reads]
  | succ m ih =>
    obtain ⟨u, hu, hr⟩ := run_succ_next h
    rw [Nat.succ_add]
    simp [reads, hu, ih hr]

/-- An access delivered to an instance while nothing waits. -/
theorem step_access {s : State} {k off size : Nat} {dir : Dir} {es : List Event} (hk : k < s.insts.length)
    (ho : off < 0x100) (hw : s.waiting = []) (he : s.events = .access (busAddr k off) size dir :: es) :
    step s = exec (decodeAccess ⟨k, BitVec.ofNat 8 off, size, dir⟩) { s with events := es, resp := none } :=
  step_run (turn_access (by simp [hw]) he (route_window hk ho))

/-- Replacing an instance changes the number of busy ones by its own share. -/
theorem busy_count_set {l : List Inst} {k : Nat} {x : Inst} (h : l[k]? = some x) (y : Inst) :
    ((l.set k y).filter Inst.busy).length + x.busy.toNat = (l.filter Inst.busy).length + y.busy.toNat := by
  induction l generalizing k with
  | nil => cases h
  | cons z l ih =>
    cases k with
    | zero =>
      simp only [List.getElem?_cons_zero, Option.some.injEq] at h
      subst h
      cases hz : z.busy <;> cases hy : y.busy <;> simp [hz, hy]
    | succ k =>
      have := ih (by simpa using h)
      cases hz : z.busy <;> simp [hz] <;> omega

end Sys2Proof.Machine
end

