-- ==== Sys2Proof/Tests/Slice0.lean ====
section
/-! SUPPORT. Tests. Expected values are those of spec/95_test_vectors.md (named in each comment) or are written out from the
encodings of spec/30_encoding.md and spec/10_state.md. At the end, for every obligation with hypotheses, a witness that
meets them, for each clause. -/

namespace Sys2Proof.Tests

open Sys2Proof Sys2Proof.Machine

/-! ### Small states -/

/-- One instance and nothing else. -/
def solo (x : Inst) : State := ⟨[x], [], [], none⟩

/-- One instance, and what comes next. -/
def soloThen (x : Inst) (es : List Event) : State := ⟨[x], [], es, none⟩

/-- One instance, and one access that waits for it. -/
def soloWaits (x : Inst) (a : Access) (es : List Event) : State := ⟨[x], [a], es, none⟩

/-- An open session. -/
def opened : Inst := { Inst.reset with active := true }

/-- A command in flight. -/
def starting : Inst := { Inst.reset with pendOp := .start }
def updating : Inst := { opened with pendOp := .update }
def finishing : Inst := { opened with pendOp := .final }

/-- The bytes 00 01 .. 0F. -/
def k16 : Bytes16 := blockOf fun i => BitVec.ofNat 8 i

/-- `TOY_XOR` (95 Notation). -/
def toy : Cipher := fun key x => xorBlock x key

/-- The instance after a write of `w` to CMD, while idle. -/
def wr (x : Inst) (w : Word) : Inst := x.issue (decodeWord w)

/-- The next state an outcome gives, if it gives one. -/
def nextOf : Result → Option State
  | .next t => some t
  | _ => none

/-- An access held for instance 0. -/
def cmdWait (w : Word) : Access := ⟨0, 0x00, 4, .write w⟩
def doutWait : Access := ⟨0, 0x40, 4, .read⟩

/-! ### WellFormed: an ill-formed term for each check, refused -/

theorem test_wf_refuses_a_register_as_reserved : (Instr.rsvdOffset 0 0x4C .read).wf = false := by decide
theorem test_wf_refuses_a_misaligned_offset_as_reserved : (Instr.rsvdOffset 0 0x0D .read).wf = false := by decide
theorem test_wf_refuses_a_good_access_as_bad : (Instr.badSizeOrAlign 0 0x0C 4 .read).wf = false := by decide
theorem test_wf_refuses_a_legal_word_as_illegal :
    (Instr.illegal 0 0x0000FF01).wf = false ∧ (Instr.illegal 0 0x00000002).wf = false
      ∧ (Instr.illegal 0 0x000F0003).wf = false := by decide
theorem test_wf_accepts : (Instr.rsvdOffset 0 0xFC .read).wf = true ∧ (Instr.badSizeOrAlign 0 0x30 1 .read).wf = true
    ∧ (Instr.illegal 0 0).wf = true ∧ (Instr.start 0 0xFF).wf = true := by decide

/-! ### Decoding: words written out from 30 R70 and R74, accesses from 10 R22 -/

-- 0000 0000 0000 | 0000 | 0000 0001 | 0000 | 0001: MODE 1, OP 1.
theorem test_decode_start : decode (.cmd32 3 0b00000000000000000000000100000001#32) = .start 3 1 := by decide
theorem test_decode_update : decode (.cmd32 3 0b00000000000000000000000000000010#32) = .update 3 := by decide
-- NBYTES 1111, OP 0011.
theorem test_decode_final : decode (.cmd32 3 0b00000000000011110000000000000011#32) = .final 3 15 := by decide
-- A must-be-zero bit of each opcode set (R72).
theorem test_decode_illegal_bits : decodeWord 0x00000011 = .illegal 0x00000011 ∧ decodeWord 0x80000001 = .illegal 0x80000001
    ∧ decodeWord 0x00000102 = .illegal 0x00000102 ∧ decodeWord 0x00010002 = .illegal 0x00010002
    ∧ decodeWord 0x00000103 = .illegal 0x00000103 ∧ decodeWord 0x00100003 = .illegal 0x00100003 := by decide
-- The reserved opcodes 0x0, 0x4 and 0xF (R74).
theorem test_decode_reserved_opcodes : decode (.cmd32 3 0) = .illegal 3 0 ∧ decode (.cmd32 3 4) = .illegal 3 4
    ∧ decode (.cmd32 3 0xF) = .illegal 3 0xF := by decide
theorem test_decode_control : decodeAccess ⟨2, 0x00, 4, .write 9⟩ = .wrCmd 2 9 ∧ decodeAccess ⟨2, 0x00, 4, .read⟩ = .rdCmd 2
    ∧ decodeAccess ⟨2, 0x04, 4, .write 9⟩ = .wrStatus 2 9 ∧ decodeAccess ⟨2, 0x04, 4, .read⟩ = .rdStatus 2
    ∧ decodeAccess ⟨2, 0x08, 4, .write 9⟩ = .wrOutCount 2 9 ∧ decodeAccess ⟨2, 0x08, 4, .read⟩ = .rdOutCount 2 := by decide
theorem test_decode_key : decodeAccess ⟨2, 0x10, 4, .write 9⟩ = .wrKey0 2 9 ∧ decodeAccess ⟨2, 0x10, 4, .read⟩ = .rdKey0 2
    ∧ decodeAccess ⟨2, 0x14, 4, .write 9⟩ = .wrKey1 2 9 ∧ decodeAccess ⟨2, 0x14, 4, .read⟩ = .rdKey1 2
    ∧ decodeAccess ⟨2, 0x18, 4, .write 9⟩ = .wrKey2 2 9 ∧ decodeAccess ⟨2, 0x18, 4, .read⟩ = .rdKey2 2
    ∧ decodeAccess ⟨2, 0x1C, 4, .write 9⟩ = .wrKey3 2 9 ∧ decodeAccess ⟨2, 0x1C, 4, .read⟩ = .rdKey3 2 := by decide
theorem test_decode_iv : decodeAccess ⟨2, 0x20, 4, .write 9⟩ = .wrIv0 2 9 ∧ decodeAccess ⟨2, 0x20, 4, .read⟩ = .rdIv0 2
    ∧ decodeAccess ⟨2, 0x24, 4, .write 9⟩ = .wrIv1 2 9 ∧ decodeAccess ⟨2, 0x24, 4, .read⟩ = .rdIv1 2
    ∧ decodeAccess ⟨2, 0x28, 4, .write 9⟩ = .wrIv2 2 9 ∧ decodeAccess ⟨2, 0x28, 4, .read⟩ = .rdIv2 2
    ∧ decodeAccess ⟨2, 0x2C, 4, .write 9⟩ = .wrIv3 2 9 ∧ decodeAccess ⟨2, 0x2C, 4, .read⟩ = .rdIv3 2 := by decide
theorem test_decode_din : decodeAccess ⟨2, 0x30, 4, .write 9⟩ = .wrDin0 2 9 ∧ decodeAccess ⟨2, 0x30, 4, .read⟩ = .rdDin0 2
    ∧ decodeAccess ⟨2, 0x34, 4, .write 9⟩ = .wrDin1 2 9 ∧ decodeAccess ⟨2, 0x34, 4, .read⟩ = .rdDin1 2
    ∧ decodeAccess ⟨2, 0x38, 4, .write 9⟩ = .wrDin2 2 9 ∧ decodeAccess ⟨2, 0x38, 4, .read⟩ = .rdDin2 2
    ∧ decodeAccess ⟨2, 0x3C, 4, .write 9⟩ = .wrDin3 2 9 ∧ decodeAccess ⟨2, 0x3C, 4, .read⟩ = .rdDin3 2 := by decide
theorem test_decode_dout : decodeAccess ⟨2, 0x40, 4, .write 9⟩ = .wrDout0 2 9 ∧ decodeAccess ⟨2, 0x40, 4, .read⟩ = .rdDout0 2
    ∧ decodeAccess ⟨2, 0x44, 4, .write 9⟩ = .wrDout1 2 9 ∧ decodeAccess ⟨2, 0x44, 4, .read⟩ = .rdDout1 2
    ∧ decodeAccess ⟨2, 0x48, 4, .write 9⟩ = .wrDout2 2 9 ∧ decodeAccess ⟨2, 0x48, 4, .read⟩ = .rdDout2 2
    ∧ decodeAccess ⟨2, 0x4C, 4, .write 9⟩ = .wrDout3 2 9 ∧ decodeAccess ⟨2, 0x4C, 4, .read⟩ = .rdDout3 2 := by decide
-- R185: 0x0C, 0x50, 0xFC.
theorem test_decode_reserved : decodeAccess ⟨2, 0x0C, 4, .read⟩ = .rsvdOffset 2 0x0C .read
    ∧ decodeAccess ⟨2, 0x50, 4, .write 9⟩ = .rsvdOffset 2 0x50 (.write 9)
    ∧ decodeAccess ⟨2, 0xFC, 4, .read⟩ = .rsvdOffset 2 0xFC .read := by decide
-- R186: a 1-byte write at 0x30, a 4-byte read at 0x42, and a wrong size at a reserved offset.
theorem test_decode_bad : decodeAccess ⟨2, 0x30, 1, .write 9⟩ = .badSizeOrAlign 2 0x30 1 (.write 9)
    ∧ decodeAccess ⟨2, 0x42, 4, .read⟩ = .badSizeOrAlign 2 0x42 4 .read
    ∧ decodeAccess ⟨2, 0x0C, 8, .read⟩ = .badSizeOrAlign 2 0x0C 8 .read := by decide
theorem test_table_words : decodeTableWord 32 0x00000101 = some (.start 0 1) ∧ decodeTableWord 8 0x40 = some (.rdDout0 0)
    ∧ decodeTableWord 32 0 = some (.illegal 0 0) := by decide

/-! ### Commands (95 section 4.1) -/

-- V-CMD-1, V-CMD-2, V-CMD-3.
theorem test_start_ecb : (wr Inst.reset 0x00000001).statusWord = 0x01#32
    ∧ ((wr Inst.reset 0x00000001).complete toy true).statusWord = 0x02#32 := by decide
theorem test_start_cbc : ((wr Inst.reset 0x00000101).complete toy true).statusWord = 0x0A#32
    ∧ ((wr Inst.reset 0x00000101).complete toy false).statusWord = 0x20#32 := by decide
-- V-CMD-6: the output of an earlier session is cleared.
theorem test_start_unknown_mode :
    (wr { Inst.reset with outCount := 0x30, outValid := true, dout := Quad.fill 7 } 0x00000701)
      = { Inst.reset with err := .unsupportedMode } := by decide
-- V-CMD-13 and V-CMD-11.
theorem test_out_of_sequence : (wr opened 0x00000001).statusWord = 0x32#32 ∧ (wr Inst.reset 0x00000002).statusWord = 0x30#32
    ∧ (wr Inst.reset 0x00000003).statusWord = 0x30#32 := by decide
-- V-CMD-14: illegal has priority; V-CMD-7.
theorem test_illegal : (wr opened 0x00000102).statusWord = 0x42#32 ∧ wr Inst.reset 0x00000011 = { Inst.reset with err := .illegalCmd } := by
  decide
-- V-CMD-15: ECB, KEY_L = K16, DIN = 0^16.
theorem test_update_ecb : (wr { opened with keyL := k16 } 0x00000002).statusWord = 0x03#32
    ∧ ((wr { opened with keyL := k16 } 0x00000002).complete toy true).dout = packBlock k16
    ∧ ((wr { opened with keyL := k16 } 0x00000002).complete toy true).statusWord = 0x06#32
    ∧ ((wr { opened with keyL := k16 } 0x00000002).complete toy true).outCount = 0x10#32 := by decide
-- V-CMD-16 and V-CMD-17: the limit itself, and the first count past it.
theorem test_update_limit : ((wr { opened with outCount := 0xFFFFFFD0 } 0x00000002).complete toy true).outCount = 0xFFFFFFE0#32
    ∧ (wr { opened with outCount := 0xFFFFFFE0, outValid := true } 0x00000002).statusWord = 0x56#32 := by decide
-- V-CMD-18.
theorem test_final_at_the_limit :
    ((wr { opened with outCount := 0xFFFFFFE0, outValid := true, err := .lengthError } 0x00000003).complete toy true).outCount
      = 0xFFFFFFF0#32
    ∧ ((wr { opened with outCount := 0xFFFFFFE0, outValid := true, err := .lengthError } 0x00000003).complete toy true).statusWord
      = 0x04#32 := by decide
-- V-CMD-20's IN_L. Its DOUT by R138, R144 and the definition of TOY_XOR: byte i is 0x20 xor i, the last 0x01 xor 0x0F
-- (the row itself gives rep(15, 0x20), which is no TOY_XOR of it: log 17). The context is released (R139).
theorem test_final_pads : ((wr { opened with keyL := k16, din := ⟨0x20202020, 0x20202020, 0x20202020, 0x99202020⟩ } 0x000F0003).inL
      = unpackBlock ⟨0x20202020, 0x20202020, 0x20202020, 0x01202020⟩)
    ∧ ((wr { opened with keyL := k16, din := Quad.fill 0x20202020 } 0x000F0003).complete toy true).dout
      = ⟨0x23222120, 0x27262524, 0x2B2A2928, 0x0E2E2D2C⟩
    ∧ ((wr { opened with keyL := k16, din := Quad.fill 0x20202020 } 0x000F0003).complete toy true).keyL = zeroBlock := by decide
-- V-PAD, n = 1 and n = 8.
theorem test_pad_block : packBlock (padBlock 1 (unpackBlock ⟨0x000000AA, 1, 2, 3⟩)) = ⟨0x0F0F0FAA, 0x0F0F0F0F, 0x0F0F0F0F, 0x0F0F0F0F⟩
    ∧ packBlock (padBlock 8 k16) = ⟨0x03020100, 0x07060504, 0x08080808, 0x08080808⟩
    ∧ padBlock 0 k16 = repBlock 0x10 := by decide
-- V-CMD-21 and V-CMD-22 as the step that holds.
theorem test_cmd_held : nextOf (exec (.wrCmd 0 3) (solo updating)) = some ⟨[updating], [cmdWait 3], [], some .held⟩ := by decide

/-! ### Register access (95 section 4.2) -/

-- V-REG-1: KEY reads as 0. The second word of V-AES-3's key list is KEY1.
theorem test_key : nextOf (exec (.wrKey1 0 0x07060504) (solo Inst.reset))
      = some { solo { Inst.reset with key := ⟨0, 0x07060504, 0, 0⟩ } with resp := some .written }
    ∧ nextOf (exec (.rdKey1 0) (solo { Inst.reset with key := ⟨0, 0x07060504, 0, 0⟩ }))
      = some { solo { Inst.reset with key := ⟨0, 0x07060504, 0, 0⟩ } with resp := some (.data 0) } := by decide
-- V-REG-2: IV bytes 8..11 are EF BE AD DE.
theorem test_iv : (unpackBlock ⟨0, 0, 0xDEADBEEF, 0⟩).x2 = ⟨0xEF, 0xBE, 0xAD, 0xDE⟩
    ∧ nextOf (exec (.rdIv2 0) (solo { Inst.reset with iv := ⟨0, 0, 0xDEADBEEF, 0⟩ }))
      = some { solo { Inst.reset with iv := ⟨0, 0, 0xDEADBEEF, 0⟩ } with resp := some (.data 0xDEADBEEF) } := by decide
-- V-REG-11: DIN is stored while an UPDATE is in flight, IN_L stays.
theorem test_din_while_busy : nextOf (exec (.wrDin0 0 0x12345678) (solo updating))
    = some { solo { updating with din := ⟨0x12345678, 0, 0, 0⟩ } with resp := some .written } := by decide
-- V-REG-3, V-REG-4, V-REG-10.
theorem test_status : nextOf (exec (.wrStatus 0 0xFFFFFFFF) (solo opened)) = some { solo opened with resp := some .written }
    ∧ nextOf (exec (.rdStatus 0) (solo updating)) = some { solo updating with resp := some (.data 0x03) } := by decide
theorem test_out_count : nextOf (exec (.wrOutCount 0 5) (solo opened)) = some { solo opened with resp := some .written }
    ∧ nextOf (exec (.rdOutCount 0) (solo { opened with outCount := 0x20 }))
      = some { solo { opened with outCount := 0x20 } with resp := some (.data 0x20) } := by decide
-- V-REG-13.
theorem test_cmd_reads_zero : nextOf (exec (.rdCmd 0) (solo updating)) = some { solo updating with resp := some (.data 0) } := by decide
-- R183's example, and V-REG-9 as the step that holds.
theorem test_dout : nextOf (exec (.rdDout0 0) (solo { opened with dout := packBlock k16 }))
      = some { solo { opened with dout := packBlock k16 } with resp := some (.data 0x03020100) }
    ∧ nextOf (exec (.rdDout0 0) (solo updating)) = some ⟨[updating], [doutWait], [], some .held⟩ := by decide
-- R184's example.
theorem test_dout_write_ignored : nextOf (exec (.wrDout0 0 0x12345678) (solo opened)) = some { solo opened with resp := some .written } := by
  decide
-- V-REG-5 to V-REG-8.
theorem test_bus_errors : nextOf (exec (decodeAccess ⟨0, 0x0C, 4, .read⟩) (solo updating)) = some { solo updating with resp := some .busError }
    ∧ nextOf (exec (decodeAccess ⟨0, 0x30, 1, .write 5⟩) (solo opened)) = some { solo opened with resp := some .busError } := by decide
-- No such instance (log 10).
theorem test_no_instance : exec (.rdStatus 1) (solo opened) = .fault (.noInstance 1) := rfl

/-! ### Reset (95 section 4.3) and the step -/

-- V-RST-1: a session and a command in flight are gone.
theorem test_reset_event : nextOf (step (soloThen { finishing with iv := Quad.fill 1, modeL := .cbcChaining } [.reset 0]))
    = some (solo Inst.reset) := by decide
-- V-RST-2: the held UPDATE issues against the reset state.
theorem test_held_at_reset : nextOf (step (soloWaits Inst.reset (cmdWait 2) []))
    = some { solo { Inst.reset with err := .sequenceError } with resp := some .written } := by decide
theorem test_fetch_start : (nextOf (step (State.reset.withFetchWord 32 0x101))).map State.resp = some (some .written) := by decide
theorem test_fetch_read : (nextOf (step (State.reset.withFetchWord 8 0x04))).map State.resp = some (some (.data 0)) := by decide

/-! ### The reference functions (95 sections 2 and 3) -/

-- V-LEN.
theorem test_pad_len : [0, 1, 15, 16, 17, 31, 1024].map padLen = [16, 15, 1, 16, 15, 1, 16] := by decide
-- V-CBC-2: FF16, then EF F1 F2 .. FF, of the 17 bytes 00 01 .. 10.
theorem test_transform_cbc : transform toy .cbcChaining k16 (repBlock 0xFF) ((List.range 17).map (BitVec.ofNat 8))
    = List.replicate 16 0xFF#8 ++ [0xEF#8] ++ (List.range 15).map (fun i => BitVec.ofNat 8 (0xF1 + i)) := by decide
-- V-ECB-3: AA 0E 0D .. 00.
theorem test_transform_ecb : transform toy .noChaining k16 (repBlock 0x55) [0xAA#8]
    = 0xAA#8 :: (List.range 15).map (fun i => BitVec.ofNat 8 (14 - i)) := by decide
-- V-CBC-4: C0 = C1 under a nonzero IV.
theorem test_transform_equal_blocks : transform toy .cbcChaining zeroBlock (repBlock 1) (List.replicate 32 0#8)
    = List.replicate 32 1#8 ++ List.replicate 16 0x11#8 := by decide
-- 95 section 3.2, last note: decrypting gives P back (V-CBC-2's row).
theorem test_dec : dec toy .cbcChaining k16 (repBlock 0xFF)
    (transform toy .cbcChaining k16 (repBlock 0xFF) ((List.range 17).map (BitVec.ofNat 8)))
      = some ((List.range 17).map (BitVec.ofNat 8)) := by decide

/-! ### Witnesses: states and operands that meet the hypotheses of the obligations -/

/-- A busy instance beside an idle one. -/
def pair : List Inst := [opened, updating]

theorem witness_DecodeEncodeRoundTrip : (Instr.rsvdOffset 7 0xFC (.write 1)).wf = true
    ∧ (Instr.badSizeOrAlign 7 0xFF 16 .read).wf = true ∧ (Instr.illegal 7 0xFFFFFFFF).wf = true := by decide

-- The offsets where the clauses meet: 0x08, 0x0C, 0x10, 0x4C, 0x50, 0xFC, and 0x4D.
theorem witness_AccessDecodeOrder : (1 ≠ 4 ∧ (0x4D#8).toNat % 4 ≠ 0)
    ∧ ((0x0C#8).toNat % 4 = 0 ∧ (0x50#8).toNat % 4 = 0 ∧ 0x50 ≤ (0x50#8).toNat ∧ (0xFC#8).toNat % 4 = 0 ∧ 0x50 ≤ (0xFC#8).toNat)
    ∧ ((0x08#8).toNat ≠ 0x0C ∧ (0x10#8).toNat ≠ 0x0C ∧ (0x4C#8).toNat % 4 = 0 ∧ (0x4C#8).toNat < 0x50) := by decide
theorem witness_AccessDecodeOrder_edges : decodeAccess ⟨0, 0x4C, 4, .read⟩ = .rdDout3 0
    ∧ decodeAccess ⟨0, 0x50, 4, .read⟩ = .rsvdOffset 0 0x50 .read ∧ decodeAccess ⟨0, 0x08, 4, .read⟩ = .rdOutCount 0
    ∧ decodeAccess ⟨0, 0x4D, 4, .read⟩ = .badSizeOrAlign 0 0x4D 4 .read := by decide

-- The last address of the last window, and the first one past it.
theorem witness_AddressReachesItsInstance : 1 < 2 ∧ 0xFF < 0x100 := by decide
theorem witness_AddressReachesItsInstance_outside :
    (∀ i < (soloThen opened [.access (Config.base + 0x100) 4 .read]).insts.length,
      Config.base + 0x100 < Config.base + 0x100 * i ∨ Config.base + 0x100 * i + 0xFF < Config.base + 0x100)
    ∧ ∀ a ∈ (soloThen opened [.access (Config.base + 0x100) 4 .read]).waiting,
      (soloThen opened [.access (Config.base + 0x100) 4 .read]).blocked a = true := by
  refine ⟨fun i hi => .inr ?_, by decide⟩
  obtain rfl : i = 0 := by simpa [soloThen] using hi
  omega

theorem witness_StepRunsDeliveredAccess : 0 < (soloThen updating [.access (Config.base + 0x100 * 0 + 0x04) 4 .read]).insts.length
    ∧ ∀ a ∈ (soloThen updating [.access (Config.base + 0x100 * 0 + 0x04) 4 .read]).waiting,
      (soloThen updating [.access (Config.base + 0x100 * 0 + 0x04) 4 .read]).blocked a = true := by decide

-- One access waits for the busy instance 1, one for the idle instance 0.
theorem witness_StepRunsHeldAccessFirst :
    (∀ b ∈ [(⟨1, 0x40, 4, .read⟩ : Access)], (⟨pair, [⟨1, 0x40, 4, .read⟩, cmdWait 2], [], none⟩ : State).blocked b = true)
    ∧ (⟨pair, [⟨1, 0x40, 4, .read⟩, cmdWait 2], [], none⟩ : State).blocked (cmdWait 2) = false := by decide

theorem witness_HeldExactlyWhileBusy_held :
    nextOf (exec (decodeAccess (cmdWait 2)) (solo updating)) = some ⟨[updating], [cmdWait 2], [], some .held⟩
    ∧ nextOf (exec (decodeAccess ⟨0, 0x4C, 4, .read⟩) (solo updating))
      = some ⟨[updating], [⟨0, 0x4C, 4, .read⟩], [], some .held⟩ := by decide
theorem witness_HeldExactlyWhileBusy_not_held :
    nextOf (exec (decodeAccess ⟨0, 0x40, 4, .read⟩) (solo opened)) = some { solo opened with resp := some (.data 0) } := by decide

theorem witness_ResetEventClearsInstance : (soloThen finishing [.reset 0]).insts[0]? = some finishing
    ∧ (soloThen finishing [.resetAll]).insts[0]? = some finishing
    ∧ (∀ a ∈ (soloThen finishing [.reset 0]).waiting, (soloThen finishing [.reset 0]).blocked a = true)
    ∧ ∀ a ∈ (soloThen finishing [.resetAll]).waiting, (soloThen finishing [.resetAll]).blocked a = true := by decide

-- An UPDATE, a START and a DOUT read held at reset.
theorem witness_HeldAccessMeetsResetState : ∀ a ∈ [cmdWait 0x2, cmdWait 0x101, doutWait],
    (soloWaits finishing a [.reset a.k]).insts[a.k]? = some finishing
    ∧ ∀ b ∈ (soloWaits finishing a [.reset a.k]).waiting, (soloWaits finishing a [.reset a.k]).blocked b = true := by decide

theorem opened_inv : ({ opened with outValid := true, outCount := 16 } : Inst).Inv := by constructor <;> decide
theorem starting_inv : starting.Inv := by constructor <;> decide
theorem updating_inv : ({ updating with outCount := 0xFFFFFFD0 } : Inst).Inv := by constructor <;> decide
theorem finishing_inv : ({ finishing with outCount := 0xFFFFFFE0 } : Inst).Inv := by constructor <;> decide
theorem solo_inv {x : Inst} (h : x.Inv) (es : List Event) : (soloThen x es).Inv :=
  ⟨by simpa [soloThen] using h, by simp [soloThen]⟩

-- The largest counts an UPDATE and a FINAL can be in flight with.
theorem witness_StepKeepsInvariant : (soloThen { updating with outCount := 0xFFFFFFD0 } [.complete 0]).Inv
    ∧ ∃ t, step (soloThen { updating with outCount := 0xFFFFFFD0 } [.complete 0]) = .next t :=
  ⟨solo_inv updating_inv _, _, rfl⟩
theorem witness_OutCountNeverWraps : (soloThen { finishing with outCount := 0xFFFFFFE0 } [.complete 0]).Inv
    ∧ ∃ t x, Host.Core.run core 1 (soloThen { finishing with outCount := 0xFFFFFFE0 } [.complete 0]) = .next t ∧ x ∈ t.insts
      ∧ x.outCount = 0xFFFFFFF0#32 :=
  ⟨solo_inv finishing_inv _, _, _, rfl, .head _, rfl⟩

-- For each clause a step of that kind.
theorem witness_ControlMovesByTheTable_issue : (soloWaits Inst.reset (cmdWait 0x101) []).issues? 0
    = some ⟨.start 1, Quad.fill 0, Quad.fill 0, Quad.fill 0⟩ := by decide
theorem witness_ControlMovesByTheTable_start : (soloThen starting [.complete 0]).Inv
    ∧ (soloThen starting [.complete 0]).completes 0 .start
    ∧ ∃ t y, step (soloThen starting [.complete 0]) = .next t ∧ t.insts[0]? = some y :=
  ⟨solo_inv starting_inv _, ⟨_, _, rfl, rfl, rfl⟩, _, _, rfl, rfl⟩
theorem witness_ControlMovesByTheTable_update : (soloThen { updating with outCount := 0xFFFFFFD0 } []).Inv
    ∧ (soloThen { updating with outCount := 0xFFFFFFD0 } []).completes 0 .update :=
  ⟨solo_inv updating_inv _, _, _, rfl, rfl, rfl⟩
theorem witness_ControlMovesByTheTable_final : (soloThen { finishing with outCount := 0xFFFFFFE0 } [.complete 0]).Inv
    ∧ (soloThen { finishing with outCount := 0xFFFFFFE0 } [.complete 0]).completes 0 .final :=
  ⟨solo_inv finishing_inv _, _, _, rfl, rfl, rfl⟩
theorem witness_ControlMovesByTheTable_reset : (soloThen starting [.reset 0]).Inv ∧ (soloThen starting [.reset 0]).resets 0
    ∧ (soloThen starting [.resetAll]).resets 0 :=
  ⟨solo_inv starting_inv _, ⟨_, .inl rfl⟩, ⟨_, .inr rfl⟩⟩
theorem witness_ControlMovesByTheTable_none : (solo starting).Inv ∧ (solo Inst.reset).issues? 0 = none
    ∧ ∀ op, op ≠ .none → ¬ (solo Inst.reset).completes 0 op := by
  refine ⟨solo_inv starting_inv [], by decide, ?_⟩
  rintro op - ⟨s', x, h, -⟩
  cases h

-- An idle instance with no session, and one with an open session.
theorem witness_closed : (solo Inst.reset).insts[0]? = some Inst.reset ∧ Inst.reset.busy = false ∧ Inst.reset.active = false := by
  decide
theorem witness_open : (solo opened).insts[0]? = some opened ∧ opened.busy = false ∧ opened.active = true := by decide
theorem witness_StartLatchesKeyIvAndMode : (solo Inst.reset).insts[0]? = some Inst.reset ∧ Inst.reset.busy = false
    ∧ Inst.reset.active = false := witness_closed
theorem witness_StartRejectsUnknownMode : (Inst.reset.busy = false ∧ Inst.reset.active = false)
    ∧ 2 ≤ (2#8).toNat ∧ 2 ≤ (0xFF#8).toNat := by decide
theorem witness_OutOfSequenceOnlyWritesErr : (opened.busy = false ∧ opened.active = true)
    ∧ Inst.reset.busy = false ∧ Inst.reset.active = false := by decide
-- The last count with room, and the first without.
theorem witness_UpdateLatchesDin : ({ opened with outCount := 0xFFFFFFD0 } : Inst).busy = false
    ∧ ({ opened with outCount := 0xFFFFFFD0 } : Inst).active = true
    ∧ ({ opened with outCount := 0xFFFFFFD0 } : Inst).outCount.toNat ≤ 2 ^ 32 - 48 := by decide
theorem witness_UpdateRefusedWithoutRoom : ({ opened with outCount := 0xFFFFFFE0 } : Inst).busy = false
    ∧ ({ opened with outCount := 0xFFFFFFE0 } : Inst).active = true
    ∧ 2 ^ 32 - 48 < ({ opened with outCount := 0xFFFFFFE0 } : Inst).outCount.toNat := by decide
theorem witness_FinalLatchesPaddedBlock : (solo opened).insts[0]? = some opened ∧ opened.busy = false ∧ opened.active = true :=
  witness_open
theorem witness_IllegalWordOnlyWritesErr : (opField 0x00000000 = 0#4 ∧ 4 ≤ (opField 0x00000004).toNat
    ∧ 4 ≤ (opField 0xFFFFFFFF).toNat) ∧ legalWord 0x00010001 = false ∧ updating.busy = true ∧ opened.busy = false := by decide
theorem witness_WrCmdReportsFirstError : (solo opened).insts[0]? = some opened ∧ opened.busy = false := by decide
theorem witness_CommandHeldWhileBusy : (solo updating).insts[0]? = some updating ∧ updating.busy = true := by decide

theorem witness_StartCompletes : (soloThen starting [.complete 0]).insts[0]? = some starting ∧ starting.pendOp = .start
    ∧ ∀ a ∈ (soloThen starting [.complete 0]).waiting, (soloThen starting [.complete 0]).blocked a = true := by decide
theorem witness_UpdateCompletes : (soloWaits updating doutWait [.complete 0]).insts[0]? = some updating ∧ updating.pendOp = .update
    ∧ ∀ a ∈ (soloWaits updating doutWait [.complete 0]).waiting, (soloWaits updating doutWait [.complete 0]).blocked a = true := by
  decide
theorem witness_FinalCompletes : (soloWaits finishing (cmdWait 1) [.complete 0]).insts[0]? = some finishing
    ∧ finishing.pendOp = .final
    ∧ ∀ a ∈ (soloWaits finishing (cmdWait 1) [.complete 0]).waiting,
      (soloWaits finishing (cmdWait 1) [.complete 0]).blocked a = true := by decide
theorem witness_EveryRunEnds : ∀ a ∈ (soloWaits updating (cmdWait 3) [.reset 0]).waiting,
    a.k < (soloWaits updating (cmdWait 3) [.reset 0]).insts.length := by decide

-- Of the register statements: an instance that is there, the last register of four, idle and busy.
theorem witness_registers : (solo opened).insts[0]? = some opened ∧ 3 < 4 := by decide
theorem witness_registers_busy : (solo updating).insts[0]? = some updating ∧ 3 < 4 := by decide
theorem witness_ReadStatusReturnsFields : (solo updating).insts[0]? = some updating := by decide
theorem witness_ReadCmdAndOutCount : (solo updating).insts[0]? = some updating := by decide
theorem witness_WriteKeySetsItsBytes : (solo updating).insts[0]? = some updating ∧ 3 < 4 := witness_registers_busy
theorem witness_ReadKeyReturnsZero : (solo opened).insts[0]? = some opened ∧ 3 < 4 := witness_registers
theorem witness_IvAndDinReadBack : (solo updating).insts[0]? = some updating ∧ 3 < 4 := witness_registers_busy
theorem witness_ReadOnlyRegistersIgnoreWrites : (solo updating).insts[0]? = some updating ∧ 3 < 4 := witness_registers_busy
theorem witness_ReadDoutReturnsItsBytes : ((solo opened).insts[0]? = some opened ∧ opened.busy = false)
    ∧ (solo updating).insts[0]? = some updating ∧ updating.busy = true ∧ 3 < 4 := by decide
theorem witness_HeldDoutReadReturnsNewBlock : ∀ op ∈ [PendOp.update, PendOp.final],
    (soloThen { opened with pendOp := op } (rdEvent 0 (0x40 + 4 * 3) :: .complete 0 :: [])).waiting = []
    ∧ (({ opened with pendOp := op } : Inst).pendOp = .update ∨ ({ opened with pendOp := op } : Inst).pendOp = .final) := by decide
theorem witness_BusErrorChangesNothing : (solo updating).insts[0]? = some updating ∧ 8 ≠ 4 ∧ (0x42#8).toNat % 4 ≠ 0
    ∧ (0x0C#8).toNat = 0x0C ∧ 0x50 ≤ (0x50#8).toNat ∧ 0x50 ≤ (0xFC#8).toNat := by decide

-- A write that changes each of the three.
theorem witness_OnlyHostWritesInputs :
    nextOf (exec (wrKeyAt 3 0 7) (solo opened)) = some ⟨[{ opened with key := ⟨0, 0, 0, 7⟩ }], [], [], some .written⟩
    ∧ nextOf (exec (wrIvAt 0 0 7) (solo opened)) = some ⟨[{ opened with iv := ⟨7, 0, 0, 0⟩ }], [], [], some .written⟩
    ∧ nextOf (exec (wrDinAt 2 0 7) (solo opened)) = some ⟨[{ opened with din := ⟨0, 0, 7, 0⟩ }], [], [], some .written⟩ := by decide
-- Steps that open (if the draw is good), close, begin and end: the writers of 10 R25 to R29.
theorem witness_SessionStateWriters : (∃ t y, step (soloThen finishing [.complete 0]) = .next t ∧ t.insts[0]? = some y
      ∧ finishing.active = true ∧ y.active = false ∧ finishing.busy = true ∧ y.busy = false)
    ∧ ∃ t y, step (soloWaits Inst.reset (cmdWait 1) []) = .next t ∧ t.insts[0]? = some y ∧ y.busy = true :=
  ⟨⟨_, _, rfl, rfl, rfl, rfl, rfl, rfl⟩, _, _, rfl, rfl, rfl⟩
theorem witness_SessionStateWriters_mode : ∃ t y, step (soloThen { opened with modeL := .cbcChaining } [.reset 0]) = .next t
    ∧ t.insts[0]? = some y ∧ y.modeL ≠ .cbcChaining :=
  ⟨_, _, rfl, rfl, by decide⟩
-- If the draw of a START is good its completion opens a session; if not it writes INIT_ERROR.
theorem witness_SessionStateWriters_start : ∃ t y, step (soloThen starting [.complete 0]) = .next t ∧ t.insts[0]? = some y
    ∧ (Config.initOk 0 0 = true → starting.active = false ∧ y.active = true)
    ∧ (Config.initOk 0 0 = false → y.err = .initError) := by
  refine ⟨_, _, rfl, rfl, ?_, ?_⟩ <;> intro h <;> simp [Inst.engine, Inst.complete, starting, Inst.completeStart, Inst.reset, h]
theorem witness_OutputWriters : ∃ t y, step (soloThen updating [.complete 0]) = .next t ∧ t.insts[0]? = some y
    ∧ updating.outCount ≠ y.outCount := ⟨_, _, rfl, rfl, by decide⟩
theorem witness_ErrWriters : (∃ t y, step (soloWaits Inst.reset (cmdWait 2) []) = .next t ∧ t.insts[0]? = some y
      ∧ y.err ≠ Inst.reset.err)
    ∧ ((soloWaits Inst.reset (cmdWait 2) []).issues? 0).isSome = true :=
  ⟨⟨_, _, rfl, rfl, by decide⟩, by decide⟩
-- KEY_L is cleared by FINAL's completion, IN_L latched by UPDATE's issue.
theorem witness_ContextWriters : (∃ t y, step (soloThen { finishing with keyL := k16, chain := k16 } []) = .next t
      ∧ t.insts[0]? = some y ∧ y.keyL ≠ k16 ∧ y.chain ≠ k16)
    ∧ ¬ (soloThen { finishing with keyL := k16, chain := k16 } []).resets 0 := by
  refine ⟨⟨_, _, rfl, rfl, by decide, by decide⟩, ?_⟩
  rintro ⟨s', h | h⟩ <;> cases h
theorem witness_ContextWriters_latch : ∃ t y, step (soloWaits { opened with din := Quad.fill 5 } (cmdWait 2) []) = .next t
    ∧ t.insts[0]? = some y ∧ y.inL ≠ opened.inL := ⟨_, _, rfl, rfl, by decide⟩
-- A refusal in each of the two groups: SEQUENCE_ERROR and UNSUPPORTED_MODE.
theorem witness_NoPartialOutput : (∃ t y, step (soloWaits Inst.reset (cmdWait 2) []) = .next t ∧ t.insts[0]? = some y
      ∧ y.err = .sequenceError)
    ∧ (∃ t y, step (soloWaits Inst.reset (cmdWait 0x201) []) = .next t ∧ t.insts[0]? = some y ∧ y.err = .unsupportedMode) :=
  ⟨⟨_, _, rfl, rfl, rfl⟩, _, _, rfl, rfl, rfl⟩
theorem witness_NoPartialOutput_inv : (soloWaits Inst.reset (cmdWait 2) []).Inv ∧ (soloWaits Inst.reset (cmdWait 0x201) []).Inv := by
  have h : Inst.reset.Inv := by constructor <;> decide
  exact ⟨⟨by simpa [soloWaits] using h, by decide⟩, ⟨by simpa [soloWaits] using h, by decide⟩⟩

-- Two machines that agree on instance 0 alone.
theorem witness_InstancesShareNothing : (⟨pair, [], [], none⟩ : State).insts[instrTarget (.rdStatus 0)]?
      = (solo opened).insts[instrTarget (.rdStatus 0)]?
    ∧ nextOf (exec (.rdStatus 0) ⟨pair, [], [], none⟩) = some ⟨pair, [], [], some (.data 2)⟩ := by decide
theorem witness_SecretsNotReadable : (solo opened).insts[0]? = some opened
    ∧ nextOf (exec (.rdKey0 0) (solo opened)) = some { solo opened with resp := some (.data 0) } := by decide

-- A START issued, completed, and read.
theorem witness_TimingDoesNotMatter : (∀ e ∈ (soloWaits Inst.reset (cmdWait 1) [.complete 0]).events, e ≠ .reset 0 ∧ e ≠ .resetAll)
    ∧ ∃ t y, Host.Core.run core 2 (soloWaits Inst.reset (cmdWait 1) [.complete 0]) = .next t ∧ t.insts[0]? = some y :=
  ⟨by decide, _, _, rfl, rfl⟩
theorem witness_CommandsComputeTransform : (Inst.reset.active = false ∧ Inst.reset.busy = false)
    ∧ (⟨.start (modeCode .cbcChaining), Quad.fill 1, Quad.fill 2, Quad.fill 3⟩ : Issue).cmd = .start (modeCode .cbcChaining)
    ∧ (∀ u ∈ [(⟨.update, Quad.fill 1, Quad.fill 2, Quad.fill 3⟩ : Issue)], u.cmd = .update)
    ∧ (⟨.final 15, Quad.fill 1, Quad.fill 2, Quad.fill 3⟩ : Issue).cmd = .final 15
    ∧ 16 * [(⟨.update, Quad.fill 1, Quad.fill 2, Quad.fill 3⟩ : Issue)].length + (15#4).toNat ≤ lMax := by decide
theorem witness_CanonicalSessionReadsTransform : (Inst.reset.active = false ∧ Inst.reset.busy = false)
    ∧ (soloThen Inst.reset (sessionEvents 0 .cbcChaining k16 k16 [k16] 15#4 k16)).waiting = []
    ∧ (soloThen Inst.reset (sessionEvents 0 .cbcChaining k16 k16 [k16] 15#4 k16)).insts[0]? = some Inst.reset
    ∧ (soloThen Inst.reset (sessionEvents 0 .cbcChaining k16 k16 [k16] 15#4 k16)).events
      = sessionEvents 0 .cbcChaining k16 k16 [k16] 15#4 k16 ++ []
    ∧ 16 * [k16].length + (15#4).toNat ≤ lMax :=
  ⟨by decide, rfl, rfl, by simp [soloThen], by decide⟩

-- P1 of 95 section 6: two equal blocks.
theorem witness_EcbBlocksAreIndependent : (chunks (pad (List.replicate 32 0#8)))[0]? = (chunks (pad (List.replicate 32 0#8)))[1]? := by
  decide
theorem toy_perm : CipherPerm toy toy := by
  intro key x
  simp [toy]
theorem witness_CbcEqualBlocks : CipherPerm toy toy := toy_perm
theorem witness_DecInvertsTransform : CipherPerm toy toy := toy_perm
-- The block numbers of PaddedBlocks, at both ends, for 33 bytes.
theorem witness_PaddedBlocks : 0 < (List.replicate 33 0#8).length / 16 ∧ 1 < (List.replicate 33 0#8).length / 16 := by decide

end Sys2Proof.Tests
end

section
/-! The family 20_memory: no step of an instance reads or writes another instance's state (R64). -/

namespace Sys2Proof.Machine

/-! ### An operation on one instance -/

/-- `op` acts on instance `k` alone: whenever that instance is there, `op` answers a next state in which the instance
has become `f` of itself and no other has changed, and the bus answers `r` of the instance. The functions `f` and `r`
see nothing but the instance. -/
def ActsOn (k : Nat) (op : State → Result) (f : Inst → Inst) (r : Inst → Response) : Prop :=
  ∀ (s : State) (x : Inst), s.insts[k]? = some x →
    ∃ s', op s = .next s' ∧ s'.insts = s.insts.set k (f x) ∧ s'.resp = some (r x)

/-- Putting an instance back where it stands changes nothing. -/
theorem set_inst_self {l : List Inst} {k : Nat} {x : Inst} (h : l[k]? = some x) : l.set k x = l := by
  obtain ⟨hk, rfl⟩ := List.getElem?_eq_some_iff.mp h
  exact List.set_getElem_self hk

section
variable {k : Nat} {op : State → Result} {f : Inst → Inst} {r : Inst → Response} {s t s' : State}

theorem ActsOn.frame (hop : ActsOn k op f r) {x : Inst} (hx : s.insts[k]? = some x) (h : op s = .next s') {j : Nat}
    (hj : j ≠ k) : s'.insts[j]? = s.insts[j]? := by
  obtain ⟨u, hu, hinsts, -⟩ := hop s x hx
  obtain rfl := Host.Outcome.next.inj (h.symm.trans hu)
  rw [hinsts, List.getElem?_set_ne hj.symm]

/-- In two states that agree on the instance the operation answers alike. -/
theorem ActsOn.agree (hop : ActsOn k op f r) {x : Inst} (hs : s.insts[k]? = some x) (ht : t.insts[k]? = some x)
    (h : op s = .next s') :
    ∃ t', op t = .next t' ∧ s'.insts[k]? = t'.insts[k]? ∧ s'.resp = t'.resp := by
  obtain ⟨u, hu, hinsts, hresp⟩ := hop s x hs
  obtain rfl := Host.Outcome.next.inj (h.symm.trans hu)
  obtain ⟨t', ht', hinsts', hresp'⟩ := hop t x ht
  refine ⟨t', ht', ?_, hresp.trans hresp'.symm⟩
  rw [hinsts, hinsts', List.getElem?_set_self', List.getElem?_set_self', hs, ht]

end

/-! ### The shared operations, and every instruction, act on one instance -/

theorem readInst_actsOn (k : Nat) (f : Inst → Word) : ActsOn k (readInst k f) id fun x => .data (f x) :=
  fun _ _ h => ⟨_, readInst_some h f, (set_inst_self h).symm, rfl⟩

theorem writeInst_actsOn (k : Nat) (f : Inst → Inst) : ActsOn k (writeInst k f) f fun _ => .written :=
  fun _ _ h => ⟨_, writeInst_some h f, rfl, rfl⟩

theorem ignoreWrite_actsOn (k : Nat) : ActsOn k (ignoreWrite k) id fun _ => .written :=
  fun _ _ h => ⟨_, ignoreWrite_some h, (set_inst_self h).symm, rfl⟩

theorem busErrorAt_actsOn (k : Nat) : ActsOn k (busErrorAt k) id fun _ => .busError :=
  fun _ _ h => ⟨_, busErrorAt_some h, (set_inst_self h).symm, rfl⟩

theorem cmdWrite_actsOn (k : Nat) (w : Word) (f : Inst → Inst) :
    ActsOn k (cmdWrite k w f) (fun x => if x.busy then x else f x)
      fun x => if x.busy then .held else .written := by
  intro s x h
  cases hb : x.busy
  · exact ⟨_, cmdWrite_idle h hb w f, by simp [hb], by simp [hb]⟩
  · exact ⟨_, cmdWrite_busy h hb w f, by simp [hb, set_inst_self h], by simp [hb]⟩

theorem doutRead_actsOn (k : Nat) (off : BitVec 8) (f : Inst → Word) :
    ActsOn k (doutRead k off f) id fun x => if x.busy then .held else .data (f x) := by
  intro s x h
  cases hb : x.busy
  · exact ⟨_, doutRead_idle h hb off f, (set_inst_self h).symm, by simp [hb]⟩
  · exact ⟨_, doutRead_busy h hb off f, (set_inst_self h).symm, by simp [hb]⟩

/-- Every instruction acts on the instance it is for. -/
theorem exec_actsOn (i : Instr) : ∃ f r, ActsOn (instrTarget i) (exec i) f r := by
  cases i
  case start | update | final | illegal | wrCmd => exact ⟨_, _, cmdWrite_actsOn _ _ _⟩
  case rdCmd | rdStatus | rdOutCount | rdKey0 | rdKey1 | rdKey2 | rdKey3 | rdIv0 | rdIv1 | rdIv2 | rdIv3
      | rdDin0 | rdDin1 | rdDin2 | rdDin3 => exact ⟨_, _, readInst_actsOn _ _⟩
  case wrStatus | wrOutCount | wrDout0 | wrDout1 | wrDout2 | wrDout3 => exact ⟨_, _, ignoreWrite_actsOn _⟩
  case rsvdOffset | badSizeOrAlign => exact ⟨_, _, busErrorAt_actsOn _⟩
  case wrKey0 | wrKey1 | wrKey2 | wrKey3 | wrIv0 | wrIv1 | wrIv2 | wrIv3 | wrDin0 | wrDin1 | wrDin2 | wrDin3 =>
    exact ⟨_, _, writeInst_actsOn _ _⟩
  case rdDout0 | rdDout1 | rdDout2 | rdDout3 => exact ⟨_, _, doutRead_actsOn _ _ _⟩

/-! ### The moves that are no instruction -/

theorem modifyInst_agree {s t : State} {k : Nat} (f : Inst → Inst) (h : s.insts[k]? = t.insts[k]?) :
    (s.modifyInst k f).insts[k]? = (t.modifyInst k f).insts[k]? := by
  simp [h]

theorem modifyInst_frame (s : State) {j k : Nat} (f : Inst → Inst) (hj : j ≠ k) :
    (s.modifyInst k f).insts[j]? = s.insts[j]? := by
  simp [hj.symm]

/-- Settles O46: an instruction acts on its own instance only, and so do the engine's step and a reset of one
instance, each of which modifies one instance by a function of it. -/
theorem instancesShareNothing : Obligations.InstancesShareNothing := by
  refine ⟨fun i s t s' hst h => ?_, fun s t k j hst => ?_⟩
  · obtain ⟨x, hs, -⟩ := exec_effect h
    obtain ⟨f, r, hop⟩ := exec_actsOn i
    exact ⟨fun j hj => hop.frame hs h hj, hop.agree hs (hst ▸ hs) h⟩
  · exact ⟨modifyInst_agree _ hst, modifyInst_agree _ hst,
      fun hj => ⟨modifyInst_frame s _ hj, modifyInst_frame s _ hj⟩⟩

end Sys2Proof.Machine
end

section
/-! The family 40_mode_semantics: padding, the two modes and the transform (R100 to R118). -/

namespace Sys2Proof.Machine

/-! ### Lengths -/

theorem pad_length_mod (p : List Byte) : (pad p).length % 16 = 0 := by
  rw [pad_length]
  omega

/-- In both modes a block goes to a block. -/
@[simp] theorem encryptBlocks_length (E : Cipher) (md : Mode) (key iv : Bytes16) (bs : List Bytes16) :
    (encryptBlocks E md key iv bs).length = bs.length := by
  induction bs generalizing iv with
  | nil => cases md <;> rfl
  | cons b bs ih => rw [encryptBlocks_cons, List.length_cons, ih, List.length_cons]

/-- The transform keeps the padded length: the padded plaintext is whole blocks, and their number is kept. -/
theorem transform_length (E : Cipher) (md : Mode) (key iv : Bytes16) (p : List Byte) :
    (transform E md key iv p).length = (pad p).length := by
  calc (transform E md key iv p).length
      = 16 * (chunks (pad p)).length := by rw [transform, joinBlocks_length, encryptBlocks_length]
    _ = (joinBlocks (chunks (pad p))).length := (joinBlocks_length _).symm
    _ = (pad p).length := by rw [joinBlocks_chunks (pad_length_mod p)]

/-- Settles O51: padding adds 1 to 16 bytes and ends at a block boundary, and the transform keeps that length. -/
theorem ciphertextLength : Obligations.CiphertextLength := by
  intro E md key iv p
  have hlen := pad_length p
  exact ⟨by omega, pad_length_mod p, by omega, by omega, by omega, transform_length E md key iv p⟩

end Sys2Proof.Machine
end

section
/-! The family 41_commands: the refusal of illegal words (R131, R141) and the completion of UPDATE (R136, R144). -/

namespace Sys2Proof

/-! ### Illegal words -/

/-- A legal word has one of the three opcodes of R74. -/
theorem opField_of_legalWord {w : Word} (h : legalWord w = true) :
    opField w = 1#4 ∨ opField w = 2#4 ∨ opField w = 3#4 := by
  rcases (legalWord_iff w).mp h with h | h | h
  · exact .inl ((startCheck_iff w).mpr h).1
  · exact .inr (.inl ((updateCheck_iff w).mpr h).1)
  · exact .inr (.inr ((finalCheck_iff w).mpr h).1)

theorem legalWord_of_reservedOpcode {w : Word} (h : opField w = 0#4 ∨ 4 ≤ (opField w).toNat) : legalWord w = false := by
  refine Bool.eq_false_iff.mpr fun hl => ?_
  rcases opField_of_legalWord hl with ho | ho | ho <;> simp [ho] at h

theorem decodeWord_of_illegal {w : Word} (h : legalWord w = false) : decodeWord w = .illegal w := by
  have hl := mt (legalWord_iff w).mpr (by simp [h])
  rcases decodeWord_cases w with ⟨hw, -⟩ | ⟨hw, -⟩ | ⟨hw, -⟩ | ⟨-, hd⟩
  · exact absurd (.inl hw) hl
  · exact absurd (.inr (.inl hw)) hl
  · exact absurd (.inr (.inr hw)) hl
  · exact hd

end Sys2Proof

namespace Sys2Proof.Machine

section
variable {s : State} {k : Nat} {x : Inst} {es : List Event}

/-- The issue step of an illegal word is the refusal of ILLEGAL. -/
theorem exec_wrCmd_of_illegal {w : Word} (h : legalWord w = false) : exec (.wrCmd k w) s = exec (.illegal k w) s := by
  change cmdWrite k w (Inst.issue (decodeWord w)) s = cmdWrite k w (Inst.issue (.illegal w)) s
  rw [decodeWord_of_illegal h]

/-! ### Completions -/

/-- With every waiting access blocked, a completion that comes next is the engine's move of its instance and touches
nothing else but the schedule and the bus response. -/
theorem step_completion (hx : s.insts[k]? = some x) (hw : ∀ a ∈ s.waiting, s.blocked a = true)
    (he : s.events = .complete k :: es) :
    step s = .next { s with insts := s.insts.set k (x.engine k), events := es, resp := none } := by
  rw [step_complete (turn_complete hw he), State.engineMoves, State.modifyInst, modify_eq_set hx]

end

theorem chainIn_eq_ite (md : Mode) (chain b : Bytes16) :
    chainIn md chain b = if md = .cbcChaining then xorBlock b chain else b := by
  cases md <;> rfl

theorem chainOut_eq_ite (md : Mode) (chain c : Bytes16) :
    chainOut md chain c = if md = .cbcChaining then c else chain := by
  cases md <;> rfl

/-! ### The obligations -/

/-- Settles O23: ILLEGAL's issue step writes ERR alone, and no word with a reserved opcode is legal. -/
theorem illegalWordOnlyWritesErr : Obligations.IllegalWordOnlyWritesErr :=
  fun _ _ _ _ hx hb => ⟨cmdWrite_idle hx hb _ _, fun hop => exec_wrCmd_of_illegal (legalWord_of_reservedOpcode hop),
    exec_wrCmd_of_illegal⟩

/-- Settles O28: the step is the engine's move, which with UPDATE in flight is the block step of `IN_L`. -/
theorem updateCompletes : Obligations.UpdateCompletes := by
  intro s k x es hx hp hw he
  have hmove : x.engine k = x.completeUpdate Config.cipher := by rw [engine_eq, hp]
  refine ⟨_, rfl, ?_⟩
  rw [step_completion hx hw he, hmove, Inst.completeUpdate, Inst.blockStep, chainIn_eq_ite, chainOut_eq_ite]

end Sys2Proof.Machine
end

section
/-! The family 42_register_access: KEY's writes (R177), the registers that ignore writes (R174, R176, R184), the reads of
CMD and OUT_COUNT (R172, R175), and bus errors (R185, R186). -/

namespace Sys2Proof

/-! ### Elements of a quad -/

section
variable {α β : Type}

/-- Element `j` replaced, for `j` in 0..3. -/
def Quad.set (q : Quad α) (j : Nat) (v : α) : Quad α :=
  match j with
  | 0 => { q with x0 := v }
  | 1 => { q with x1 := v }
  | 2 => { q with x2 := v }
  | _ => { q with x3 := v }

theorem Quad.get_set (q : Quad α) (v : α) {i j : Nat} (hi : i < 4) (hj : j < 4) :
    (q.set j v).get i = if i = j then v else q.get i := by
  interval_cases j <;> interval_cases i <;> rfl

theorem Quad.get_map (f : α → β) (q : Quad α) (j : Nat) : (q.map f).get j = f (q.get j) := by
  match j with
  | 0 | 1 | 2 | _ + 3 => rfl

end

/-! ### Decoding to a bus error -/

section
variable {k size : Nat} {off : BitVec 8} {dir : Dir}

theorem decodeAccess_of_badAccess (h : badAccess off size = true) :
    decodeAccess ⟨k, off, size, dir⟩ = .badSizeOrAlign k off size dir :=
  if_pos h

theorem decodeAccess_of_not_badAccess (h : ¬ badAccess off size = true) :
    decodeAccess ⟨k, off, size, dir⟩ = decodeRegister k off dir :=
  if_neg h

/-- Every register of R22 is below 0x50 and none is at 0x0C. -/
theorem decodeRegister_reserved (h : off.toNat = 0x0C ∨ 0x50 ≤ off.toNat) :
    decodeRegister k off dir = .rsvdOffset k off dir := by
  have hne (o : BitVec 8) (h0C : o.toNat ≠ 0x0C) (h50 : o.toNat < 0x50) : off ≠ o := by
    rintro rfl
    omega
  simp [decodeRegister, hne]

theorem badAccess_iff : badAccess off size = true ↔ size ≠ 4 ∨ off.toNat % 4 ≠ 0 := by
  simp [badAccess]

end

end Sys2Proof

namespace Sys2Proof.Machine

/-! ### Bytes of a register -/

theorem unpackWord_get (w : Word) {i : Nat} (hi : i < 4) : (unpackWord w).get i = w.extractLsb' (8 * i) 8 := by
  interval_cases i <;> rfl

/-- Byte `i` of a 16-byte value is byte `i mod 4` of register `i div 4` (R52). -/
theorem byteAt_unpackBlock (q : Quad Word) (i : Nat) :
    byteAt (unpackBlock q) i = (q.get (i / 4)).extractLsb' (8 * (i % 4)) 8 := by
  rw [byteAt, unpackBlock, Quad.get_map, unpackWord_get _ (Nat.mod_lt i (by decide))]

/-! ### The numbered registers -/

theorem exec_wrKeyAt (j k : Nat) (v : Word) (s : State) :
    exec (wrKeyAt j k v) s = writeInst k (fun x => { x with key := x.key.set j v }) s := by
  match j with
  | 0 | 1 | 2 | _ + 3 => rfl

theorem exec_wrDoutAt (j k : Nat) (v : Word) (s : State) : exec (wrDoutAt j k v) s = ignoreWrite k s := by
  match j with
  | 0 | 1 | 2 | _ + 3 => rfl

/-! ### The obligations -/

/-- Settles O39: both kinds of instruction are bus errors, and a bad access decodes to the one, a good access to a
reserved offset to the other. -/
theorem busErrorChangesNothing : Obligations.BusErrorChangesNothing := by
  intro s k size off dir x hx
  have hreserved : exec (.rsvdOffset k off dir) s = .next (s.respond .busError) := busErrorAt_some hx
  have hbad : exec (.badSizeOrAlign k off size dir) s = .next (s.respond .busError) := busErrorAt_some hx
  refine ⟨hreserved, hbad, fun h => ?_⟩
  by_cases hb : badAccess off size = true
  · rw [decodeAccess_of_badAccess hb]
    exact hbad
  · have hoff : off.toNat = 0x0C ∨ 0x50 ≤ off.toNat := by
      rw [badAccess_iff] at hb
      tauto
    rw [decodeAccess_of_not_badAccess hb, decodeRegister_reserved hoff]
    exact hreserved

/-- Settles O32: both are reads that are never held. -/
theorem readCmdAndOutCount : Obligations.ReadCmdAndOutCount :=
  fun _ _ _ hx => ⟨readInst_some hx _, readInst_some hx _⟩

/-- Settles O33: the key after the write is the old one with word `j` replaced, and each key byte lies in one word. -/
theorem writeKeySetsItsBytes : Obligations.WriteKeySetsItsBytes := by
  intro s k j x v hx hj
  refine ⟨x.key.set j v, ?_, ?_, fun i hi => ?_⟩
  · rw [exec_wrKeyAt]
    exact writeInst_some hx _
  · rw [Quad.get_set _ _ hj hj, if_pos rfl]
  · rw [byteAt_unpackBlock, byteAt_unpackBlock, Quad.get_set _ _ (by omega) hj]
    split <;> rfl

/-- Settles O36: each of the six writes is an ignored one. -/
theorem readOnlyRegistersIgnoreWrites : Obligations.ReadOnlyRegistersIgnoreWrites :=
  fun s k j _ v hx _ => ⟨ignoreWrite_some hx, ignoreWrite_some hx, (exec_wrDoutAt j k v s).trans (ignoreWrite_some hx)⟩

end Sys2Proof.Machine
end

section
/-! The family 60_exceptions: the commands refused at issue, for an unknown mode (R202), out of sequence (R204) and for
their length (R206). -/

namespace Sys2Proof.Machine

/-! ### The issue step of an idle instance -/

/-- A command to an idle instance takes its issue step, is answered, and touches nothing else (R130, R171). -/
theorem exec_command_idle {s : State} {k : Nat} {x y : Inst} (hx : s.insts[k]? = some x) (hb : x.busy = false)
    (c : Command) (hy : x.issue c = y) : exec (c.toInstr k) s = .next ((s.setInst k y).respond .written) := by
  subst hy
  cases c with
  | start | update | final | illegal => exact cmdWrite_idle hx hb _ _

/-! ### The refusals -/

/-- The codes that select no mode (R75). -/
theorem modeOfCode_eq_none {m : BitVec 8} (h : 2 ≤ m.toNat) : modeOfCode m = none := by
  cases hm : modeOfCode m with
  | none => rfl
  | some md =>
    obtain rfl := modeOfCode_some hm
    cases md <;> simp [modeCode] at h

section
variable {x : Inst}

theorem issueStart_unknownMode (ha : x.active = false) {m : BitVec 8} (hm : 2 ≤ m.toNat) :
    x.issueStart m = x.clearOutput.refuse .unsupportedMode := by
  simp [Inst.issueStart, ha, modeOfCode_eq_none hm]

theorem issueStart_open (ha : x.active = true) (m : BitVec 8) : x.issueStart m = x.refuse .sequenceError := if_pos ha

theorem issueUpdate_closed (ha : x.active = false) : x.issueUpdate = x.refuse .sequenceError := by
  simp [Inst.issueUpdate, ha]

theorem issueFinal_closed (ha : x.active = false) (n : BitVec 4) : x.issueFinal n = x.refuse .sequenceError := by
  simp [Inst.issueFinal, ha]

theorem issueUpdate_noRoom (ha : x.active = true) (hc : 2 ^ 32 - 48 < x.outCount.toNat) :
    x.issueUpdate = x.refuse .lengthError := by
  simp [Inst.issueUpdate, ha, updateLimit_lt.mpr hc]

end

/-! ### The obligations -/

/-- Settles O18: START's issue step clears the output before it looks at the mode, and its cleared DOUT is four zero
words. -/
theorem startRejectsUnknownMode : Obligations.StartRejectsUnknownMode := by
  intro s k x m hx hb ha hm
  refine exec_command_idle hx hb (.start m) ?_
  rw [Inst.issue, issueStart_unknownMode ha hm, Inst.clearOutput, packBlock_zero, Inst.refuse]

/-- Settles O19: in each of the three cases the issue step is the refusal. -/
theorem outOfSequenceOnlyWritesErr : Obligations.OutOfSequenceOnlyWritesErr :=
  fun _ _ _ hx hb => ⟨fun ha m => exec_command_idle hx hb (.start m) (issueStart_open ha m),
    fun ha => ⟨exec_command_idle hx hb .update (issueUpdate_closed ha),
      fun n => exec_command_idle hx hb (.final n) (issueFinal_closed ha n)⟩⟩

/-- Settles O21: above the limit of R137 UPDATE's issue step is the refusal. -/
theorem updateRefusedWithoutRoom : Obligations.UpdateRefusedWithoutRoom :=
  fun _ _ _ hx hb ha hc => exec_command_idle hx hb .update (issueUpdate_noRoom ha hc)

end Sys2Proof.Machine
end

section
/-! The family 70_reset_and_hazards: the reset event (R230) and the accesses held across it (R231). -/

namespace Sys2Proof

theorem Quad.get_fill {α : Type} (v : α) (j : Nat) : (Quad.fill v).get j = v := by
  match j with
  | 0 | 1 | 2 | _ + 3 => rfl

end Sys2Proof

namespace Sys2Proof.Machine

/-! ### An instance after its reset -/

theorem resetEvent_cleared (x : Inst) : x.resetEvent.Cleared where
  status := show Inst.reset.statusWord = 0#32 by decide
  outCount := rfl
  key := rfl
  iv := rfl
  din := rfl
  dout := rfl
  keyL := rfl
  chain := rfl
  inL := rfl
  modeL := rfl
  pendMode := rfl
  pendOp := rfl

/-- With no session open, START with a mode of the mode set is accepted (R133). -/
theorem issueStart_closed {x : Inst} (ha : x.active = false) (md : Mode) :
    x.issueStart (modeCode md) = x.clearOutput.acceptStart md := by
  simp [Inst.issueStart, ha]

/-- After a reset the output is clear already and KEY and IV are zero, so START changes nothing but what is pending. -/
theorem issueStart_resetEvent (x : Inst) (md : Mode) :
    x.resetEvent.issueStart (modeCode md) = { x.resetEvent with pendMode := md, pendOp := .start } := by
  have hclear : x.resetEvent.clearOutput = x.resetEvent := by rw [Inst.clearOutput, packBlock_zero]; rfl
  have hkey : unpackBlock x.resetEvent.key = x.resetEvent.keyL := unpackBlock_zero
  have hiv : unpackBlock x.resetEvent.iv = x.resetEvent.chain := unpackBlock_zero
  rw [issueStart_closed rfl, hclear, Inst.acceptStart, hkey, hiv]
  rfl

/-! ### The reset step, and the step after it -/

section
variable {s : State} {k : Nat} {a : Access} {rest : List Access} {x : Inst} {es : List Event}

/-- With every waiting access blocked, a reset of one instance that comes next resets it and touches nothing else but the
schedule and the bus response. -/
theorem step_resetEvent (hx : s.insts[k]? = some x) (hw : ∀ b ∈ s.waiting, s.blocked b = true)
    (he : s.events = .reset k :: es) :
    step s = .next { s with insts := s.insts.set k x.resetEvent, events := es, resp := none } := by
  rw [step_reset (turn_reset hw he), State.resetInst, State.modifyInst, modify_eq_set hx]

theorem holdable_of_blocked (h : s.blocked a = true) : holdable a = true := by
  rw [State.blocked, Bool.and_eq_true] at h
  exact h.1

/-- The first waiting access is run as soon as its instance is idle. -/
theorem step_first_waiting (hw : s.waiting = a :: rest) (hx : s.insts[a.k]? = some x) (hb : x.busy = false) :
    step s = exec (decodeAccess a) { s with waiting := rest, resp := none } := by
  have hready : s.blocked a = false := by simp [State.blocked, busyAt_some hx, hb]
  exact step_run (turn_ready (pre := []) hw (by simp) hready)

/-- What an access that can be held does when its instance is idle: a write of CMD is issued, a DOUT read is answered
(R171, R183). -/
theorem exec_holdable_idle (h : holdable a = true) (hx : s.insts[a.k]? = some x) (hb : x.busy = false) :
    (∃ v, a.dir = .write v
      ∧ exec (decodeAccess a) s = .next ((s.setInst a.k (x.issue (decodeWord v))).respond .written))
    ∨ ∃ j, a.dir = .read ∧ exec (decodeAccess a) s = .next (s.respond (.data (x.dout.get j))) := by
  rcases holdable_cases h with ⟨v, ha⟩ | ⟨j, hj, ha⟩
  · refine .inl ⟨v, by rw [ha], ?_⟩
    rw [ha, decodeAccess_cmdWrite]
    exact cmdWrite_idle hx hb _ _
  · refine .inr ⟨j, by rw [ha], ?_⟩
    rw [ha, decodeAccess_doutRead _ hj, exec_rdDoutAt _ hj]
    exact doutRead_idle hx hb _ _

end

/-! ### The obligations -/

/-- Settles O12: the reset leaves the instance idle, so the next step runs the first access held, against the cleared
instance, whose DOUT is zero and whose session is closed. -/
theorem heldAccessMeetsResetState : Obligations.HeldAccessMeetsResetState := by
  intro s a rest x es hx hw hblocked he
  have hhold : holdable a = true := holdable_of_blocked (hblocked a (by simp [hw]))
  have hy := set_at hx x.resetEvent
  have hreset := step_resetEvent hx hblocked he
  have hnext := step_first_waiting (s := { s with insts := s.insts.set a.k x.resetEvent, events := es, resp := none })
    hw hy rfl
  rcases exec_holdable_idle (s := ⟨s.insts.set a.k x.resetEvent, rest, es, none⟩) hhold hy rfl
    with ⟨v, hv, hexec⟩ | ⟨j, hread, hexec⟩
  · refine ⟨_, _, _, x.resetEvent.issue (decodeWord v), hreset, rfl, rfl, resetEvent_cleared x, hnext.trans hexec,
      rfl, rfl, by simp, by simp [hv], fun v' hv' => ?_⟩
    obtain rfl : v = v' := by simpa [hv] using hv'
    refine ⟨rfl, rfl, ?_, fun md hc => ?_⟩
    · rintro (hc | ⟨n, hc⟩) <;> rw [hc]
      · exact issueUpdate_closed rfl
      · exact issueFinal_closed rfl n
    · rw [hc]
      exact issueStart_resetEvent x md
  · have hzero : x.resetEvent.dout.get j = 0#32 := Quad.get_fill 0#32 j
    rw [hzero] at hexec
    exact ⟨_, _, _, x.resetEvent, hreset, rfl, rfl, resetEvent_cleared x, hnext.trans hexec, rfl, rfl, rfl,
      fun _ => ⟨rfl, rfl⟩, by simp [hread]⟩

/-- Settles O11: a reset of one instance replaces it by its cleared self, and a reset of all does so to each. -/
theorem resetEventClearsInstance : Obligations.ResetEventClearsInstance := by
  intro s k x es hx hw
  refine ⟨fun he => ⟨_, step_resetEvent hx hw he, resetEvent_cleared x⟩,
    fun he => ⟨_, step_resetAll (turn_resetAll hw he), rfl, rfl, by simp, fun y hy => ?_⟩⟩
  obtain ⟨z, -, rfl⟩ := List.mem_map.mp hy
  exact resetEvent_cleared z

end Sys2Proof.Machine
end

section
/-! The encodings: command words (30_encoding R70 to R77) and host accesses (42_register_access R170). -/

namespace Sys2Proof

/-! ### Command words -/

theorem modeField_startWord : ∀ m : BitVec 8, modeField (startWord m) = m := by decide

theorem nbytesField_finalWord : ∀ n : BitVec 4, nbytesField (finalWord n) = n := by decide

theorem legalWord_startWord (m : BitVec 8) : legalWord (startWord m) = true :=
  (legalWord_iff _).mpr (.inl (by rw [modeField_startWord]))

theorem legalWord_finalWord (n : BitVec 4) : legalWord (finalWord n) = true :=
  (legalWord_iff _).mpr (.inr (.inr (by rw [nbytesField_finalWord])))

/-- A word is the word of the command it decodes to. -/
@[simp] theorem word_decodeWord (w : Word) : (decodeWord w).word = w := by
  rcases decodeWord_cases w with ⟨hw, hd⟩ | ⟨hw, hd⟩ | ⟨hw, hd⟩ | ⟨-, hd⟩ <;> rw [hd]
  · exact hw.symm
  · exact hw.symm
  · exact hw.symm
  · rfl

theorem decodeWord_eq_start {w : Word} {m : BitVec 8} : decodeWord w = .start m ↔ w = startWord m :=
  ⟨fun h => by rw [← word_decodeWord w, h]; rfl, fun h => h ▸ decodeWord_startWord m⟩

theorem decodeWord_eq_update {w : Word} : decodeWord w = .update ↔ w = updateWord :=
  ⟨fun h => by rw [← word_decodeWord w, h]; rfl, fun h => h ▸ by decide⟩

theorem decodeWord_eq_final {w : Word} {n : BitVec 4} : decodeWord w = .final n ↔ w = finalWord n :=
  ⟨fun h => by rw [← word_decodeWord w, h]; rfl, fun h => h ▸ decodeWord_finalWord n⟩

theorem decodeWord_eq_illegal {w : Word} : decodeWord w = .illegal w ↔ legalWord w = false := by
  refine ⟨fun h => ?_, decodeWord_of_illegal⟩
  rcases decodeWord_cases w with ⟨-, hd⟩ | ⟨-, hd⟩ | ⟨-, hd⟩ | ⟨hl, -⟩
  · simp [h] at hd
  · simp [h] at hd
  · simp [h] at hd
  · exact hl

/-- A word is illegal when it is none of those listed in R77. -/
theorem legalWord_eq_false_iff {w : Word} : legalWord w = false ↔
    (∀ m, w ≠ startWord m) ∧ w ≠ updateWord ∧ ∀ n, w ≠ finalWord n := by
  refine ⟨fun h => ⟨?_, ?_, ?_⟩, fun ⟨hs, hu, hf⟩ => ?_⟩
  · rintro m rfl
    simp [legalWord_startWord] at h
  · rintro rfl
    revert h
    decide
  · rintro n rfl
    simp [legalWord_finalWord] at h
  · refine Bool.eq_false_iff.mpr fun hl => ?_
    rcases (legalWord_iff w).mp hl with h | h | h
    · exact hs _ h
    · exact hu h
    · exact hf _ h

/-- The codes that select no mode (R75). -/
theorem modeOfCode_eq_none_iff (m : BitVec 8) : Machine.modeOfCode m = none ↔ m ≠ 0x00#8 ∧ m ≠ 0x01#8 := by
  unfold Machine.modeOfCode
  split_ifs with h0 h1
  · simp [h0]
  · simp [h1]
  · simp [h0, h1]

/-! ### Accesses -/

/-- An instruction that has the row of the access: well-formed, and encoding to that access. -/
def Instr.IsFor (i : Instr) (a : Access) : Prop := i.wf = true ∧ encode i = .bus32 a

/-- The offsets that hold a register (R22) are those below 0x50 that are a multiple of 4, but 0x0C. -/
theorem not_mem_registers : ∀ off : BitVec 8, off.toNat % 4 = 0 →
    off ∉ [0x00#8, 0x04#8, 0x08#8, 0x10#8, 0x14#8, 0x18#8, 0x1C#8, 0x20#8, 0x24#8, 0x28#8, 0x2C#8, 0x30#8, 0x34#8,
      0x38#8, 0x3C#8, 0x40#8, 0x44#8, 0x48#8, 0x4C#8] → reservedOffset off = true := by decide

theorem ite_isFor {c : Prop} [Decidable c] {i j : Instr} {a : Access} (hi : c → i.IsFor a) (hj : ¬ c → j.IsFor a) :
    (if c then i else j).IsFor a := by
  split
  case isTrue hc => exact hi hc
  case isFalse hc => exact hj hc

theorem byDir_isFor {k : Nat} {off : BitVec 8} {wr : Word → Instr} {rd : Instr} (dir : Dir)
    (hw : ∀ v, (wr v).IsFor ⟨k, off, 4, .write v⟩) (hr : rd.IsFor ⟨k, off, 4, .read⟩) :
    (byDir dir wr rd).IsFor ⟨k, off, 4, dir⟩ := by
  cases dir with
  | read => exact hr
  | write v => exact hw v

/-- A 4-byte access at an aligned offset decodes to the instruction for it: the register's at each of the nineteen offsets
that hold one, the reserved one elsewhere. -/
theorem decodeRegister_isFor (k : Nat) {off : BitVec 8} (dir : Dir) (h : off.toNat % 4 = 0) :
    (decodeRegister k off dir).IsFor ⟨k, off, 4, dir⟩ := by
  unfold decodeRegister
  iterate 19
    refine ite_isFor (by rintro rfl; exact byDir_isFor dir (fun _ => ⟨rfl, rfl⟩) ⟨rfl, rfl⟩) fun _ => ?_
  refine ⟨not_mem_registers off h ?_, rfl⟩
  simp only [List.mem_cons, List.not_mem_nil, or_false, not_or]
  and_intros <;> assumption

theorem decodeAccess_isFor (a : Access) : (decodeAccess a).IsFor a := by
  obtain ⟨k, off, size, dir⟩ := a
  by_cases hb : badAccess off size = true
  · rw [decodeAccess_of_badAccess hb]
    exact ⟨hb, rfl⟩
  · rw [decodeAccess_of_not_badAccess hb]
    obtain ⟨rfl, ho⟩ : size = 4 ∧ off.toNat % 4 = 0 := by simpa [badAccess_iff] using hb
    exact decodeRegister_isFor k dir ho

@[simp] theorem encode_decodeAccess (a : Access) : encode (decodeAccess a) = .bus32 a := (decodeAccess_isFor a).2

/-! ### The obligations -/

/-- Settles O1: a command's word passes its own check, a register's offset is the decoder's own, and the three rows whose
well-formedness is a condition are those the decoder falls back to under it. -/
theorem decodeEncodeRoundTrip : Obligations.DecodeEncodeRoundTrip := by
  intro i hi
  cases i
  case start k m => exact congrArg (Command.toInstr k) (decodeWord_startWord m)
  case final k n => exact congrArg (Command.toInstr k) (decodeWord_finalWord n)
  case illegal k w => exact congrArg (Command.toInstr k) (decodeWord_of_illegal (by simpa [Instr.wf] using hi))
  case badSizeOrAlign k off size dir => exact decodeAccess_of_badAccess hi
  case rsvdOffset k off dir =>
    obtain ⟨ho, hr⟩ : off.toNat % 4 = 0 ∧ (off.toNat = 0x0C ∨ 0x50 ≤ off.toNat) := by
      simpa [Instr.wf, reservedOffset] using hi
    exact (decodeAccess_of_not_badAccess (by simp [badAccess_iff, ho])).trans (decodeRegister_reserved hr)
  case update => rfl
  all_goals simp [encode, decode, rdAccess, wrAccess, decodeAccess, badAccess, decodeRegister, byDir]

/-- Settles O2: a word is the word of the command it decodes to, and an access decodes to the instruction for it. -/
theorem encodeDecodeRoundTrip : Obligations.EncodeDecodeRoundTrip := by
  intro e
  cases e with
  | bus32 a => exact decodeAccess_isFor a
  | cmd32 k w =>
    change ((decodeWord w).toInstr k).wf = true ∧ encode ((decodeWord w).toInstr k) = .cmd32 k w
    rcases decodeWord_cases w with ⟨hw, hd⟩ | ⟨hw, hd⟩ | ⟨hw, hd⟩ | ⟨hl, hd⟩ <;> rw [hd]
    · exact ⟨rfl, congrArg (Encoding.cmd32 k) hw.symm⟩
    · exact ⟨rfl, congrArg (Encoding.cmd32 k) hw.symm⟩
    · exact ⟨rfl, congrArg (Encoding.cmd32 k) hw.symm⟩
    · exact ⟨by simp [Command.toInstr, Instr.wf, hl], rfl⟩

/-- Settles O3: each legal form is the word of its command, and a word of none of the forms is illegal. -/
theorem legalWordsAreThoseListed : Obligations.LegalWordsAreThoseListed :=
  fun _ => ⟨fun _ => decodeWord_eq_start, fun m => modeOfCode_eq_none_iff m, decodeWord_eq_update,
    fun _ => decodeWord_eq_final, decodeWord_eq_illegal.trans legalWord_eq_false_iff⟩

/-- Settles O4: each word and each access is decoded. -/
theorem wordsOfTheSpecDecode : Obligations.WordsOfTheSpecDecode := by
  unfold Obligations.WordsOfTheSpecDecode
  decide

/-- Settles O5: the two bus-error rows are well-formed only for the accesses they stand for, and every access decodes to a
well-formed instruction that encodes to it. -/
theorem accessDecodeOrder : Obligations.AccessDecodeOrder := by
  rintro ⟨k, off, size, dir⟩
  refine ⟨fun h => decodeAccess_of_badAccess (badAccess_iff.mpr h), ?_, ?_⟩
  · rintro (rfl : size = 4) ha hr
    exact (decodeAccess_of_not_badAccess (by simpa [badAccess_iff] using ha)).trans (decodeRegister_reserved hr)
  · rintro (rfl : size = 4) ha h0C h50
    obtain ⟨hwf, henc⟩ := decodeAccess_isFor ⟨k, off, 4, dir⟩
    refine ⟨fun off' size' dir' hd => ?_, fun off' dir' hd => ?_, henc⟩ <;> rw [hd] at hwf henc <;>
      simp only [encode, Encoding.bus32.injEq, Access.mk.injEq] at henc <;> obtain ⟨-, rfl, h4, -⟩ := henc
    · exact badAccess_iff.mp hwf |>.elim (· h4) (· ha)
    · have hr : off'.toNat = 0x0C ∨ 0x50 ≤ off'.toNat := by
        simp only [Instr.wf, reservedOffset, Bool.and_eq_true, Bool.or_eq_true, beq_iff_eq, decide_eq_true_eq] at hwf
        exact hwf.2
      simp only at h0C h50
      omega

end Sys2Proof
end

section
/-! The bus (20_memory R51, 42_register_access R170): routing, delivery, and which accesses are held (R171, R183). -/

namespace Sys2Proof.Machine

/-! ### Addresses -/

/-- An address outside every window reaches no instance (R51). -/
theorem route_outside {n addr : Nat}
    (h : ∀ i < n, addr < Config.base + 0x100 * i ∨ Config.base + 0x100 * i + 0xFF < addr) : route n addr = none := by
  rw [route, if_neg]
  rintro ⟨hbase, hn⟩
  have := h _ hn
  omega

section
variable {s t : State} {k : Nat} {x : Inst} {a : Access}

/-- An access to an address that reaches no instance is passed over (log 9). -/
theorem turn_access_outside {addr size : Nat} {dir : Dir} {es : List Event} (hw : ∀ a ∈ s.waiting, s.blocked a = true)
    (he : s.events = .access addr size dir :: es) (hr : route s.insts.length addr = none) :
    s.turn = .pass { s with events := es, resp := none } := by
  simp [State.turn, takeReady_blocked hw, he, hr, State.begin]

/-! ### Held accesses -/

theorem cmdWrite_held {w : Word} {f : Inst → Inst} (h : cmdWrite k w f s = .next t) (hr : t.resp = some .held) :
    s.busyAt k = true ∧ t = s.hold ⟨k, 0x00, 4, .write w⟩ := by
  obtain ⟨x, hx, ⟨hb, rfl⟩ | ⟨-, rfl⟩⟩ := cmdWrite_next h
  · exact ⟨(busyAt_some hx).trans hb, rfl⟩
  · cases hr

theorem doutRead_held {off : BitVec 8} {f : Inst → Word} (h : doutRead k off f s = .next t) (hr : t.resp = some .held) :
    s.busyAt k = true ∧ t = s.hold ⟨k, off, 4, .read⟩ := by
  obtain ⟨x, hx, ⟨hb, rfl⟩ | ⟨-, rfl⟩⟩ := doutRead_next h
  · exact ⟨(busyAt_some hx).trans hb, rfl⟩
  · cases hr

/-- An instruction that is held is for a busy instance, and it is its own access that waits. -/
theorem exec_held {i : Instr} (h : exec i s = .next t) (hr : t.resp = some .held) :
    s.busyAt (instrTarget i) = true ∧ t = s.hold (encode i).toAccess := by
  cases i
  case start | update | final | illegal | wrCmd => exact cmdWrite_held h hr
  case rdDout0 | rdDout1 | rdDout2 | rdDout3 => exact doutRead_held h hr
  case rdCmd | rdStatus | rdOutCount | rdKey0 | rdKey1 | rdKey2 | rdKey3 | rdIv0 | rdIv1 | rdIv2 | rdIv3
      | rdDin0 | rdDin1 | rdDin2 | rdDin3 =>
    obtain ⟨x, -, rfl⟩ := readInst_next h
    cases hr
  case wrStatus | wrOutCount | wrDout0 | wrDout1 | wrDout2 | wrDout3 =>
    obtain ⟨x, -, rfl⟩ := ignoreWrite_next h
    cases hr
  case rsvdOffset | badSizeOrAlign =>
    obtain ⟨x, -, rfl⟩ := busErrorAt_next h
    cases hr
  case wrKey0 | wrKey1 | wrKey2 | wrKey3 | wrIv0 | wrIv1 | wrIv2 | wrIv3 | wrDin0 | wrDin1 | wrDin2 | wrDin3 =>
    obtain ⟨x, -, rfl⟩ := writeInst_next h
    cases hr

/-- An access of the held kind to a busy instance is held (R171, R183). -/
theorem exec_holdable_busy (h : holdable a = true) (hx : s.insts[a.k]? = some x) (hb : x.busy = true) :
    exec (decodeAccess a) s = .next (s.hold a) := by
  rcases holdable_cases h with ⟨v, ha⟩ | ⟨j, hj, ha⟩
  · rw [ha, decodeAccess_cmdWrite]
    exact cmdWrite_busy hx hb _ _
  · rw [ha, decodeAccess_doutRead _ hj, exec_rdDoutAt _ hj]
    exact doutRead_busy hx hb _ _

/-- What is held while BUSY = 1: a 4-byte write of CMD and a 4-byte read of a DOUT register (R171, R183). -/
theorem holdable_iff : holdable a = true ↔
    (∃ v, a.dir = .write v ∧ a.size = 4 ∧ a.off = 0x00#8)
      ∨ (a.dir = .read ∧ a.size = 4 ∧ ∃ j < 4, a.off = BitVec.ofNat 8 (0x40 + 4 * j)) := by
  refine ⟨fun h => ?_, ?_⟩
  · rcases holdable_cases h with ⟨v, ha⟩ | ⟨j, hj, ha⟩ <;> rw [ha]
    · exact .inl ⟨v, rfl, rfl, rfl⟩
    · exact .inr ⟨rfl, rfl, j, hj, rfl⟩
  · obtain ⟨k, off, size, dir⟩ := a
    rintro (⟨v, rfl, rfl, rfl⟩ | ⟨rfl, rfl, j, hj, rfl⟩)
    · rfl
    · interval_cases j <;> rfl

theorem busyAt_iff : s.busyAt k = true ↔ ∃ x, s.insts[k]? = some x ∧ x.busy = true := by
  unfold State.busyAt
  split <;> simp [*]

/-- An access of the held kind to a busy instance has to wait. -/
theorem blocked_of_busy (ha : holdable a = true) (hx : s.insts[a.k]? = some x) (hb : x.busy = true) :
    s.blocked a = true := by
  simp [State.blocked, ha, busyAt_some hx, hb]

/-- What waits after an instruction: what waited before, and its own access if that is held. -/
theorem exec_waiting {i : Instr} (h : exec i s = .next t) :
    t.waiting = s.waiting ∨ ∃ a, a.k = instrTarget i ∧ holdable a = true ∧ t = s.hold a := by
  obtain ⟨x, -, ⟨-, r, -, rfl⟩ | ⟨-, key, iv, din, rfl⟩ | ⟨c, -, -, rfl⟩ | ⟨a, -, hk, ha, rfl⟩⟩ := exec_effect h
  · exact .inl rfl
  · exact .inl rfl
  · exact .inl rfl
  · exact .inr ⟨a, hk, ha, rfl⟩

/-- The access that waits after an instruction is held was of the held kind. -/
theorem holdable_of_exec_held (h : exec (decodeAccess a) s = .next t) (hr : t.resp = some .held) :
    holdable a = true := by
  obtain ⟨-, ht⟩ := exec_held h hr
  rw [encode_decodeAccess] at ht
  obtain ⟨x, -, ⟨-, r, hne, rfl⟩ | ⟨-, key, iv, din, rfl⟩ | ⟨c, -, -, rfl⟩ | ⟨b, -, -, hb, rfl⟩⟩ := exec_effect h
  · exact absurd (Option.some.inj hr) hne
  · cases hr
  · cases hr
  · have hba : s.waiting ++ [b] = s.waiting ++ [a] := congrArg State.waiting ht
    obtain rfl : b = a := by simpa using hba
    exact hb

/-! ### The write of CMD -/

/-- A command is a write of its word to CMD (R79, R130). -/
theorem exec_toInstr (k : Nat) (c : Command) (s : State) :
    exec (c.toInstr k) s = cmdWrite k c.word (Inst.issue c) s := by
  cases c with
  | start | update | final | illegal => rfl

end

/-! ### The obligations -/

/-- Settles O6: the windows are disjoint, so an address lies in the one of its own quotient, and outside them the step is
passed over. -/
theorem addressReachesItsInstance : Obligations.AddressReachesItsInstance :=
  ⟨fun _ _ _ hi ho => route_window hi ho,
    fun _ _ _ _ _ hout hw he => step_pass (turn_access_outside hw he (route_outside hout))⟩

/-- Settles O7: with every waiting access blocked, the event goes, and its address is in the window of its instance. -/
theorem stepRunsDeliveredAccess : Obligations.StepRunsDeliveredAccess :=
  fun _ _ _ _ _ _ hk ho hw he => step_run (turn_access hw he (route_window hk ho))

/-- Settles O8: the first waiting access that need not wait has the turn. -/
theorem stepRunsHeldAccessFirst : Obligations.StepRunsHeldAccessFirst :=
  fun _ _ _ _ hw hpre ha => step_run (turn_ready hw hpre ha)

/-- Settles O9: what an instruction holds is its own access, and an access is the encoding of what it decodes to. -/
theorem heldExactlyWhileBusy : Obligations.HeldExactlyWhileBusy := by
  intro a s t h
  have heffect : t.resp = some .held → s.busyAt a.k = true ∧ t = s.hold a := fun hr => by
    simpa [decodeAccess_target, Encoding.toAccess] using exec_held h hr
  refine ⟨⟨fun hr => ⟨(heffect hr).1, holdable_iff.mp (holdable_of_exec_held h hr)⟩, fun ⟨hb, ha⟩ => ?_⟩,
    fun hr => (heffect hr).2, fun hr => ?_⟩
  · obtain ⟨x, hx, hb⟩ := busyAt_iff.mp hb
    obtain rfl := Host.Outcome.next.inj ((exec_holdable_busy (holdable_iff.mpr ha) hx hb).symm.trans h)
    rfl
  · rcases exec_waiting h with hw | ⟨b, -, -, rfl⟩
    · exact hw
    · exact absurd rfl hr

/-- Settles O10: after reset every instance is one that a reset event leaves. -/
theorem resetStateIsZero : Obligations.ResetStateIsZero := by
  refine ⟨?_, fun x hx => ?_, rfl, rfl⟩
  · simp [State.reset, Config.nInst]
  · obtain rfl := List.eq_of_mem_replicate hx
    exact resetEvent_cleared Inst.reset

/-- Settles O24: a word is the word of the command it decodes to, and the command is the write of that word. -/
theorem wrCmdRunsItsCommand : Obligations.WrCmdRunsItsCommand := by
  intro s k v
  change cmdWrite k v (Inst.issue (decodeWord v)) s = exec ((decodeWord v).toInstr k) s
  rw [exec_toInstr, word_decodeWord]

/-- Settles O26: a command is a write of its word to CMD, and that is held. -/
theorem commandHeldWhileBusy : Obligations.CommandHeldWhileBusy :=
  fun s k _ c hx hb => (exec_toInstr k c s).trans (cmdWrite_busy hx hb _ _)

end Sys2Proof.Machine
end

section
/-! The commands (41_commands): accepted commands (R133, R135, R138), the code a write of CMD reports (60_exceptions R208),
and the completions of START and FINAL (R134, R139). -/

namespace Sys2Proof.Machine

section
variable {x y : Inst} {k : Nat}

/-! ### Accepted commands -/

theorem acceptStart_clearOutput (md : Mode) (x : Inst) : x.clearOutput.acceptStart md =
    { x with
      outCount := 0#32, dout := Quad.fill 0#32, outValid := false, err := .ok,
      keyL := unpackBlock x.key, chain := unpackBlock x.iv, pendMode := md, pendOp := .start } := by
  rw [Inst.clearOutput, packBlock_zero]
  rfl

theorem issueUpdate_room (ha : x.active = true) (hc : x.outCount.toNat ≤ 2 ^ 32 - 48) :
    x.issueUpdate = { x with err := .ok, outValid := false, inL := unpackBlock x.din, pendOp := .update } := by
  simp [Inst.issueUpdate, ha, mt updateLimit_lt.mp (Nat.not_lt.mpr hc)]

theorem issueFinal_open (ha : x.active = true) (n : BitVec 4) : x.issueFinal n =
    { x with err := .ok, outValid := false, inL := padBlock n.toNat (unpackBlock x.din), pendOp := .final } := by
  simp [Inst.issueFinal, ha]

/-- The codes that select a mode (R75). -/
theorem exists_modeCode {m : BitVec 8} (h : ¬ 2 ≤ m.toNat) : ∃ md, m = modeCode md := by
  obtain h0 | h1 : m.toNat = 0 ∨ m.toNat = 1 := by omega
  · exact ⟨.noChaining, BitVec.eq_of_toNat_eq h0⟩
  · exact ⟨.cbcChaining, BitVec.eq_of_toNat_eq h1⟩

/-! ### The code of a completed write of CMD -/

/-- `y` is what an idle `x` becomes by a command that reports `e`: in flight exactly when accepted, and for three of the
codes changed in ERR alone. -/
structure Reports (x : Inst) (e : ErrCode) (y : Inst) : Prop where
  err : y.err = e
  busy_iff : y.busy = true ↔ y.err = .ok
  frame : y.err = .illegalCmd ∨ y.err = .sequenceError ∨ y.err = .lengthError → y = { x with err := y.err }

theorem reports_refuse (hb : x.busy = false) {e : ErrCode} (he : e ≠ .ok) : Reports x e (x.refuse e) := by
  have hb' : (x.refuse e).busy = false := hb
  exact ⟨rfl, by simp [hb', he], fun _ => rfl⟩

theorem reports_unsupportedMode (hb : x.busy = false) :
    Reports x .unsupportedMode (x.clearOutput.refuse .unsupportedMode) := by
  have hb' : (x.clearOutput.refuse .unsupportedMode).busy = false := hb
  exact ⟨rfl, by simp [hb'], by simp⟩

theorem reports_ok (he : y.err = .ok) (hb : y.busy = true) : Reports x .ok y :=
  ⟨he, by simp [he, hb], by simp [he]⟩

theorem reports_illegal (hb : x.busy = false) (w : Word) : Reports x .illegalCmd (x.issue (.illegal w)) :=
  reports_refuse hb (by decide)

theorem reports_start (hb : x.busy = false) (m : BitVec 8) : Reports x
    (if x.active = true then .sequenceError else if 2 ≤ m.toNat then .unsupportedMode else .ok)
    (x.issue (.start m)) := by
  rw [Inst.issue]
  split_ifs with ha hm
  · rw [issueStart_open ha]
    exact reports_refuse hb (by decide)
  · rw [issueStart_unknownMode (by simpa using ha) hm]
    exact reports_unsupportedMode hb
  · obtain ⟨md, rfl⟩ := exists_modeCode hm
    rw [issueStart_closed (by simpa using ha)]
    exact reports_ok rfl rfl

theorem reports_update (hb : x.busy = false) : Reports x
    (if x.active = false then .sequenceError else if 2 ^ 32 - 48 < x.outCount.toNat then .lengthError else .ok)
    (x.issue .update) := by
  rw [Inst.issue]
  split_ifs with ha hc
  · rw [issueUpdate_closed ha]
    exact reports_refuse hb (by decide)
  · rw [issueUpdate_noRoom (by simpa using ha) hc]
    exact reports_refuse hb (by decide)
  · rw [issueUpdate_room (by simpa using ha) (Nat.not_lt.mp hc)]
    exact reports_ok rfl rfl

theorem reports_final (hb : x.busy = false) (n : BitVec 4) : Reports x
    (if x.active = false then .sequenceError else .ok) (x.issue (.final n)) := by
  rw [Inst.issue]
  split_ifs with ha
  · rw [issueFinal_closed ha]
    exact reports_refuse hb (by decide)
  · rw [issueFinal_open (by simpa using ha)]
    exact reports_ok rfl rfl

/-! ### Completions -/

theorem initOk_iff (k n : Nat) :
    Config.initOk k n = true ↔ Config.initMayFail = false ∨ Config.initDraw k n = true := by
  simp [Config.initOk]

theorem engine_start (hp : x.pendOp = .start) (k : Nat) :
    x.engine k = x.completeStart (Config.initOk k x.draws) := by
  rw [engine_eq, hp]

theorem engine_update (hp : x.pendOp = .update) (k : Nat) : x.engine k = x.completeUpdate Config.cipher := by
  rw [engine_eq, hp]

theorem engine_final (hp : x.pendOp = .final) (k : Nat) : x.engine k = x.completeFinal Config.cipher := by
  rw [engine_eq, hp]

/-- The block a completion of UPDATE or FINAL puts out (R144). -/
theorem engine_dout (hp : x.pendOp = .update ∨ x.pendOp = .final) (k : Nat) : (x.engine k).dout =
    packBlock (Config.cipher x.keyL (if x.modeL = .cbcChaining then xorBlock x.inL x.chain else x.inL)) := by
  rw [← chainIn_eq_ite]
  rcases hp with hp | hp
  · rw [engine_update hp, Inst.completeUpdate_dout]
  · rw [engine_final hp, Inst.completeFinal_dout]

/-! ### Reads of DOUT -/

/-- The host's read of DOUT register `j` (R183). -/
def doutAccess (k j : Nat) : Access := ⟨k, BitVec.ofNat 8 (0x40 + 4 * j), 4, .read⟩

theorem doutAccess_holdable (k : Nat) {j : Nat} (hj : j < 4) : holdable (doutAccess k j) = true :=
  holdable_iff.mpr (.inr ⟨rfl, rfl, j, hj, rfl⟩)

theorem exec_doutAccess_idle {s : State} {j : Nat} (hj : j < 4) (hx : s.insts[k]? = some x) (hb : x.busy = false) :
    exec (decodeAccess (doutAccess k j)) s = .next (s.respond (.data (x.dout.get j))) := by
  rw [doutAccess, decodeAccess_doutRead k hj, exec_rdDoutAt k hj]
  exact doutRead_idle hx hb _ _

end

/-! ### The obligations -/

/-- Settles O17: with no session open START clears the output and is accepted with the mode of its code. -/
theorem startLatchesKeyIvAndMode : Obligations.StartLatchesKeyIvAndMode :=
  fun _ _ x md hx hb ha => exec_command_idle hx hb (.start (modeCode md))
    ((issueStart_closed ha md).trans (acceptStart_clearOutput md x))

/-- Settles O20: up to the limit of R137 UPDATE is accepted. -/
theorem updateLatchesDin : Obligations.UpdateLatchesDin :=
  fun _ _ _ hx hb ha hc => exec_command_idle hx hb .update (issueUpdate_room ha hc)

/-- Settles O22: in an open session FINAL is accepted, and the block it latches is DIN padded. -/
theorem finalLatchesPaddedBlock : Obligations.FinalLatchesPaddedBlock :=
  fun _ _ x n hx hb ha => ⟨padBlock n.toNat (unpackBlock x.din),
    exec_command_idle hx hb (.final n) (issueFinal_open ha n), blockBytes_padBlock n.isLt _⟩

/-- Settles O25: what each of the four commands reports, and which opcode each legal word has. -/
theorem wrCmdReportsFirstError : Obligations.WrCmdReportsFirstError := by
  intro s k x v hx hb
  refine ⟨x.issue (decodeWord v), cmdWrite_idle hx hb _ _, ?_⟩
  rcases decodeWord_cases v with ⟨hw, hd⟩ | ⟨hw, hd⟩ | ⟨hw, hd⟩ | ⟨hl, hd⟩ <;> rw [hd]
  · have hl : legalWord v = true := (legalWord_iff v).mpr (.inl hw)
    have hop : opField v = 1#4 := ((startCheck_iff v).mpr hw).1
    have hr := reports_start hb (modeField v)
    exact ⟨by simpa [hl, hop] using hr.err, hr.busy_iff, hr.frame⟩
  · have hl : legalWord v = true := (legalWord_iff v).mpr (.inr (.inl hw))
    have hop : opField v = 2#4 := ((updateCheck_iff v).mpr hw).1
    have hr := reports_update hb
    exact ⟨by simpa [hl, hop] using hr.err, hr.busy_iff, hr.frame⟩
  · have hl : legalWord v = true := (legalWord_iff v).mpr (.inr (.inr hw))
    have hop : opField v = 3#4 := ((finalCheck_iff v).mpr hw).1
    have hr := reports_final hb (nbytesField v)
    exact ⟨by simpa [hl, hop] using hr.err, hr.busy_iff, hr.frame⟩
  · have hr := reports_illegal hb v
    exact ⟨by simpa [hl] using hr.err, hr.busy_iff, hr.frame⟩

/-- Settles O27: the step is the engine's move, which with START in flight is its completion under the draw. -/
theorem startCompletes : Obligations.StartCompletes := by
  intro s k x es hx hp hw he
  rw [step_completion hx hw he, engine_start hp]
  simp only [← initOk_iff]
  cases Config.initOk k x.draws <;> rfl

/-- Settles O29: the step is the engine's move, which with FINAL in flight is the block step of `IN_L` and the close of
the session. -/
theorem finalCompletes : Obligations.FinalCompletes := by
  intro s k x es hx hp hw he
  refine ⟨_, rfl, ?_⟩
  rw [step_completion hx hw he, engine_final hp, Inst.completeFinal, Inst.blockStep, chainIn_eq_ite]

/-- Settles O38: the read is held, the completion puts out the block and ends BUSY, and the read has the next turn. -/
theorem heldDoutReadReturnsNewBlock : Obligations.HeldDoutReadReturnsNewBlock := by
  intro s k j x es hx hp hj hw he
  obtain ⟨insts, waiting, events, resp⟩ := s
  obtain rfl : waiting = [] := hw
  obtain rfl : events = rdEvent k (0x40 + 4 * j) :: .complete k :: es := he
  have hb : x.busy = true := busy_iff.mpr (by rcases hp with hp | hp <;> simp [hp])
  have ha := doutAccess_holdable k hj
  have hsent : step ⟨insts, [], rdEvent k (0x40 + 4 * j) :: .complete k :: es, resp⟩
      = .next ⟨insts, [doutAccess k j], .complete k :: es, some .held⟩ :=
    (step_access (index_lt hx) (by omega) rfl rfl).trans (exec_holdable_busy ha hx hb)
  have hblocked : ∀ b ∈ [doutAccess k j],
      State.blocked ⟨insts, [doutAccess k j], .complete k :: es, some .held⟩ b = true := by
    rintro b (- | ⟨-, ⟨⟩⟩)
    exact blocked_of_busy ha hx hb
  have hdone := step_completion (s := ⟨insts, [doutAccess k j], .complete k :: es, some .held⟩) hx hblocked rfl
  have hy : (insts.set k (x.engine k))[k]? = some (x.engine k) := set_at hx _
  have hread : step ⟨insts.set k (x.engine k), [doutAccess k j], es, none⟩
      = .next ⟨insts.set k (x.engine k), [], es, some (.data ((x.engine k).dout.get j))⟩ :=
    (step_first_waiting rfl hy (engine_not_busy k x)).trans
      (exec_doutAccess_idle hj hy (engine_not_busy k x))
  refine ⟨⟨insts.set k (x.engine k), [], es, some (.data ((x.engine k).dout.get j))⟩, ?_, rfl, rfl, ?_⟩
  · rw [run_succ _ hsent, run_succ _ hdone, run_succ _ hread]
    rfl
  · rw [engine_dout hp]

end Sys2Proof.Machine
end

section
/-! The registers (42_register_access R173, R178 to R183), who writes KEY, IV and DIN (41_commands R143), and what no
response tells. -/

namespace Sys2Proof

theorem Quad.get_set_self {α : Type} (q : Quad α) (v : α) {j : Nat} (hj : j < 4) : (q.set j v).get j = v := by
  rw [Quad.get_set q v hj hj, if_pos rfl]

end Sys2Proof

namespace Sys2Proof.Machine

/-! ### STATUS -/

/-- The fields of STATUS do not overlap (R24, R173). -/
theorem statusFields_toNat : ∀ (e : BitVec 4) (m v a b : Bool),
    (e.setWidth 32 <<< 4 ||| flagWord m <<< 3 ||| flagWord v <<< 2 ||| flagWord a <<< 1 ||| flagWord b).toNat
      = e.toNat * 16 + m.toNat * 8 + v.toNat * 4 + a.toNat * 2 + b.toNat := by decide

theorem statusWord_toNat (x : Inst) : x.statusWord.toNat = (errCode x.err).toNat * 16 + (modeFlag x.modeL).toNat * 8
    + x.outValid.toNat * 4 + x.active.toNat * 2 + x.busy.toNat := statusFields_toNat _ _ _ _ _

theorem statusWord_high (x : Inst) : x.statusWord.extractLsb' 8 24 = 0#24 := by
  have hlt : x.statusWord.toNat < 2 ^ 8 := by
    have he := (errCode x.err).isLt
    have hm := (modeFlag x.modeL).toNat_lt
    have hv := x.outValid.toNat_lt
    have ha := x.active.toNat_lt
    have hb := x.busy.toNat_lt
    rw [statusWord_toNat]
    omega
  apply BitVec.eq_of_toNat_eq
  rw [BitVec.extractLsb'_toNat, Nat.shiftRight_eq_div_pow, Nat.div_eq_of_lt hlt]
  rfl

/-! ### The numbered registers -/

section
variable (j k : Nat) (v : Word) (s : State)

theorem exec_rdKeyAt : exec (rdKeyAt j k) s = readInst k (fun _ => 0#32) s := by
  match j with
  | 0 | 1 | 2 | _ + 3 => rfl

theorem exec_rdIvAt : exec (rdIvAt j k) s = readInst k (fun x => x.iv.get j) s := by
  match j with
  | 0 | 1 | 2 | _ + 3 => rfl

theorem exec_rdDinAt : exec (rdDinAt j k) s = readInst k (fun x => x.din.get j) s := by
  match j with
  | 0 | 1 | 2 | _ + 3 => rfl

theorem exec_wrIvAt : exec (wrIvAt j k v) s = writeInst k (fun x => { x with iv := x.iv.set j v }) s := by
  match j with
  | 0 | 1 | 2 | _ + 3 => rfl

theorem exec_wrDinAt : exec (wrDinAt j k v) s = writeInst k (fun x => { x with din := x.din.set j v }) s := by
  match j with
  | 0 | 1 | 2 | _ + 3 => rfl

end

/-! ### Who writes the inputs, and what a response depends on -/

/-- The registers of a 16-byte value before and after the instruction `i` for instance `k`, `wrAt` naming their writes: as
they were, or one of them written by its own write. -/
inductive Written (wrAt : Nat → Nat → Word → Instr) (k : Nat) (i : Instr) (q : Quad Word) : Quad Word → Prop where
  | same : Written wrAt k i q q
  | reg (j : Nat) (hj : j < 4) (v : Word) (hi : i = wrAt j k v) : Written wrAt k i q (q.set j v)

theorem Written.get {wrAt : Nat → Nat → Word → Instr} {k : Nat} {i : Instr} {q q' : Quad Word}
    (h : Written wrAt k i q q') {j : Nat} (hj : j < 4) (hne : q'.get j ≠ q.get j) :
    ∃ v, i = wrAt j k v ∧ q'.get j = v := by
  cases h with
  | same => exact absurd rfl hne
  | reg j' hj' v hi =>
    rw [Quad.get_set q v hj hj'] at hne ⊢
    obtain rfl : j = j' := by_contra fun hjj' => hne (if_neg hjj')
    exact ⟨v, hi, if_pos rfl⟩

/-- The instance with KEY and the hidden state replaced that no register shows. -/
def Inst.withSecrets (x : Inst) (key : Quad Word) (keyL chain inL : Bytes16) (md : Mode) : Inst :=
  { x with key := key, keyL := keyL, chain := chain, inL := inL, pendMode := md }

/-- What the instruction `i` does to its instance, `f`, and answers of it, `r`: it writes KEY, IV and DIN only as their own
host write, and the answer does not depend on KEY or on hidden state. -/
structure Acts (i : Instr) (f : Inst → Inst) (r : Inst → Response) : Prop where
  actsOn : ActsOn (instrTarget i) (exec i) f r
  key : ∀ x, Written wrKeyAt (instrTarget i) i x.key (f x).key
  iv : ∀ x, Written wrIvAt (instrTarget i) i x.iv (f x).iv
  din : ∀ x, Written wrDinAt (instrTarget i) i x.din (f x).din
  noSecret : ∀ x key keyL chain inL md, r (Inst.withSecrets x key keyL chain inL md) = r x

section
variable {i : Instr} {r : Inst → Response}

/-- An instruction that leaves its instance as it is. -/
theorem acts_id (h : ActsOn (instrTarget i) (exec i) id r)
    (hr : ∀ x key keyL chain inL md, r (Inst.withSecrets x key keyL chain inL md) = r x) : Acts i id r where
  actsOn := h
  key _ := .same
  iv _ := .same
  din _ := .same
  noSecret := hr

/-- A command, held or issued, writes no input. -/
theorem command_inputs (c : Command) (x : Inst) : (if x.busy then x else x.issue c).key = x.key
    ∧ (if x.busy then x else x.issue c).iv = x.iv ∧ (if x.busy then x else x.issue c).din = x.din := by
  split
  · exact ⟨rfl, rfl, rfl⟩
  · exact issue_inputs c x

theorem acts_command {w : Word} (c : Command) (h : exec i = cmdWrite (instrTarget i) w (Inst.issue c)) :
    Acts i (fun x => if x.busy then x else x.issue c) fun x => if x.busy then .held else .written where
  actsOn := h ▸ cmdWrite_actsOn _ w _
  key x := (command_inputs c x).1 ▸ .same
  iv x := (command_inputs c x).2.1 ▸ .same
  din x := (command_inputs c x).2.2 ▸ .same
  noSecret _ _ _ _ _ _ := rfl

theorem acts_write {f : Inst → Inst} (h : exec i = writeInst (instrTarget i) f)
    (hkey : ∀ x, Written wrKeyAt (instrTarget i) i x.key (f x).key)
    (hiv : ∀ x, Written wrIvAt (instrTarget i) i x.iv (f x).iv)
    (hdin : ∀ x, Written wrDinAt (instrTarget i) i x.din (f x).din) : Acts i f fun _ => .written where
  actsOn := h ▸ writeInst_actsOn _ f
  key := hkey
  iv := hiv
  din := hdin
  noSecret _ _ _ _ _ _ := rfl

/-- Every instruction acts so: the reads and the ignored writes leave their instance as it is and show registers other than
KEY, a command takes its issue step, and the writes of KEY, IV and DIN write their register. -/
theorem exec_acts (i : Instr) : ∃ f r, Acts i f r := by
  cases i
  case start k m => exact ⟨_, _, acts_command (.start m) rfl⟩
  case update k => exact ⟨_, _, acts_command .update rfl⟩
  case final k n => exact ⟨_, _, acts_command (.final n) rfl⟩
  case illegal k w => exact ⟨_, _, acts_command (.illegal w) rfl⟩
  case wrCmd k v => exact ⟨_, _, acts_command (decodeWord v) rfl⟩
  case rdCmd | rdStatus | rdOutCount | rdKey0 | rdKey1 | rdKey2 | rdKey3 | rdIv0 | rdIv1 | rdIv2 | rdIv3
      | rdDin0 | rdDin1 | rdDin2 | rdDin3 => exact ⟨_, _, acts_id (readInst_actsOn _ _) fun _ _ _ _ _ _ => rfl⟩
  case wrStatus | wrOutCount | wrDout0 | wrDout1 | wrDout2 | wrDout3 =>
    exact ⟨_, _, acts_id (ignoreWrite_actsOn _) fun _ _ _ _ _ _ => rfl⟩
  case rsvdOffset | badSizeOrAlign => exact ⟨_, _, acts_id (busErrorAt_actsOn _) fun _ _ _ _ _ _ => rfl⟩
  case rdDout0 | rdDout1 | rdDout2 | rdDout3 =>
    exact ⟨_, _, acts_id (doutRead_actsOn _ _ _) fun _ _ _ _ _ _ => rfl⟩
  case wrKey0 k v => exact ⟨_, _, acts_write rfl (fun _ => .reg 0 (by decide) v rfl) (fun _ => .same) fun _ => .same⟩
  case wrKey1 k v => exact ⟨_, _, acts_write rfl (fun _ => .reg 1 (by decide) v rfl) (fun _ => .same) fun _ => .same⟩
  case wrKey2 k v => exact ⟨_, _, acts_write rfl (fun _ => .reg 2 (by decide) v rfl) (fun _ => .same) fun _ => .same⟩
  case wrKey3 k v => exact ⟨_, _, acts_write rfl (fun _ => .reg 3 (by decide) v rfl) (fun _ => .same) fun _ => .same⟩
  case wrIv0 k v => exact ⟨_, _, acts_write rfl (fun _ => .same) (fun _ => .reg 0 (by decide) v rfl) fun _ => .same⟩
  case wrIv1 k v => exact ⟨_, _, acts_write rfl (fun _ => .same) (fun _ => .reg 1 (by decide) v rfl) fun _ => .same⟩
  case wrIv2 k v => exact ⟨_, _, acts_write rfl (fun _ => .same) (fun _ => .reg 2 (by decide) v rfl) fun _ => .same⟩
  case wrIv3 k v => exact ⟨_, _, acts_write rfl (fun _ => .same) (fun _ => .reg 3 (by decide) v rfl) fun _ => .same⟩
  case wrDin0 k v => exact ⟨_, _, acts_write rfl (fun _ => .same) (fun _ => .same) fun _ => .reg 0 (by decide) v rfl⟩
  case wrDin1 k v => exact ⟨_, _, acts_write rfl (fun _ => .same) (fun _ => .same) fun _ => .reg 1 (by decide) v rfl⟩
  case wrDin2 k v => exact ⟨_, _, acts_write rfl (fun _ => .same) (fun _ => .same) fun _ => .reg 2 (by decide) v rfl⟩
  case wrDin3 k v => exact ⟨_, _, acts_write rfl (fun _ => .same) (fun _ => .same) fun _ => .reg 3 (by decide) v rfl⟩

end

/-- No engine's move writes KEY, IV or DIN. -/
theorem engine_keeps_inputs (k : Nat) (x : Inst) :
    (x.engine k).key = x.key ∧ (x.engine k).iv = x.iv ∧ (x.engine k).din = x.din := by
  have h := engine_inputs k x x.key x.iv x.din
  exact ⟨(congrArg Inst.key h :), (congrArg Inst.iv h :), (congrArg Inst.din h :)⟩

/-! ### The obligations -/

/-- Settles O31: STATUS is a read that is never held, and its fields do not overlap. -/
theorem readStatusReturnsFields : Obligations.ReadStatusReturnsFields :=
  fun _ _ x hx => ⟨x.statusWord, readInst_some hx _, statusWord_toNat x, busy_iff, statusWord_high x⟩

/-- Settles O34: a KEY register is read as 0. -/
theorem readKeyReturnsZero : Obligations.ReadKeyReturnsZero :=
  fun s k j _ hx _ => (exec_rdKeyAt j k s).trans (readInst_some hx _)

/-- Settles O35: a write sets the register's word, which is the word that a read shows. -/
theorem ivAndDinReadBack : Obligations.IvAndDinReadBack := by
  intro s k j x v hx hj
  refine ⟨(exec_rdIvAt j k s).trans (readInst_some hx _), (exec_rdDinAt j k s).trans (readInst_some hx _),
    ⟨x.iv.set j v, _, (exec_wrIvAt j k v s).trans (writeInst_some hx _), rfl, fun i hi => Quad.get_set _ _ hi hj, ?_⟩,
    ⟨x.din.set j v, _, (exec_wrDinAt j k v s).trans (writeInst_some hx _), rfl, fun i hi => Quad.get_set _ _ hi hj, ?_⟩⟩
  · rw [exec_rdIvAt, readInst_some (set_at hx _), Quad.get_set_self _ _ hj]
    rfl
  · rw [exec_rdDinAt, readInst_some (set_at hx _), Quad.get_set_self _ _ hj]
    rfl

/-- Settles O37: a DOUT read is held while BUSY, else answered with its register, whose bytes are those of the block. -/
theorem readDoutReturnsItsBytes : Obligations.ReadDoutReturnsItsBytes := by
  intro s k j x hx hj
  rw [exec_rdDoutAt k hj]
  refine ⟨fun hb => ⟨x.dout.get j, doutRead_idle hx hb _ _, fun i hi => ?_⟩, fun hb => doutRead_busy hx hb _ _⟩
  rw [byteAt_unpackBlock, show (4 * j + i) / 4 = j by omega, show (4 * j + i) % 4 = i by omega]

/-- Settles O40: an instruction touches its own instance only, and of that KEY, IV and DIN only as their own write; no
engine touches them. -/
theorem onlyHostWritesInputs : Obligations.OnlyHostWritesInputs := by
  refine ⟨fun i s t k x y h hx hy => ?_, engine_keeps_inputs⟩
  obtain ⟨z, hz, -⟩ := exec_effect h
  obtain ⟨f, r, hacts⟩ := exec_acts i
  by_cases hk : k = instrTarget i
  · subst hk
    obtain ⟨u, hu, hinsts, -⟩ := hacts.actsOn s x hx
    obtain rfl := Host.Outcome.next.inj (h.symm.trans hu)
    rw [hinsts, set_at hx] at hy
    obtain rfl := Option.some.inj hy
    exact ⟨fun j hj hne => (hacts.key x).get hj hne, fun j hj hne => (hacts.iv x).get hj hne,
      fun j hj hne => (hacts.din x).get hj hne⟩
  · obtain rfl : x = y := by simpa [hacts.actsOn.frame hz h hk, hx] using hy
    exact ⟨fun _ _ hne => absurd rfl hne, fun _ _ hne => absurd rfl hne, fun _ _ hne => absurd rfl hne⟩

/-- Settles O47: what an instruction answers is a function of its instance that sees neither KEY nor hidden state. -/
theorem secretsNotReadable : Obligations.SecretsNotReadable := by
  intro i s s' k x key keyL chain inL md hx h
  obtain ⟨z, hz, -⟩ := exec_effect h
  obtain ⟨f, r, hacts⟩ := exec_acts i
  obtain ⟨u, hu, -, hresp⟩ := hacts.actsOn s z hz
  obtain rfl := Host.Outcome.next.inj (h.symm.trans hu)
  by_cases hk : k = instrTarget i
  · subst hk
    obtain rfl : x = z := Option.some.inj (hx.symm.trans hz)
    obtain ⟨t', ht', -, hresp'⟩ := hacts.actsOn (s.setInst _ (x.withSecrets key keyL chain inL md)) _ (set_at hx _)
    exact ⟨t', ht', by rw [hresp, hresp', hacts.noSecret]⟩
  · obtain ⟨t', ht', -, hresp'⟩ := hacts.actsOn (s.setInst k (x.withSecrets key keyL chain inL md)) z
      (by rw [State.setInst_insts, List.getElem?_set_ne hk, hz])
    exact ⟨t', ht', by rw [hresp, hresp']⟩

end Sys2Proof.Machine
end

section
/-! The invariant of every reachable state (10_state R36 to R41, 41_commands R145, 60_exceptions R209): it holds after
reset, and every step keeps it. -/

namespace Sys2Proof.Machine

/-! ### One instance -/

section
variable {x : Inst}

theorem inv_withInputs (h : x.Inv) (key iv din : Quad Word) : ({ x with key := key, iv := iv, din := din } : Inst).Inv :=
  ⟨h.aligned, h.closed, h.starting, h.room, h.updateRoom, h.inFlight, h.released, h.noOutput, h.failedStart⟩

theorem inv_resetEvent (x : Inst) : x.resetEvent.Inv where
  aligned := rfl
  closed _ := .inl rfl
  starting := by simp [Inst.reset]
  room _ := by simp [Inst.reset]
  updateRoom := by simp [Inst.reset]
  inFlight := by simp [Inst.busy, Inst.reset]
  released _ _ := ⟨rfl, rfl⟩
  noOutput _ := ⟨rfl, packBlock_zero.symm⟩
  failedStart _ := ⟨rfl, rfl⟩

/-- A refusal out of sequence, for an illegal word or for the length changes ERR alone, and not to one of the codes of a
failed START. -/
theorem inv_refuse (h : x.Inv) (hb : x.busy = false) {e : ErrCode}
    (he : e = .sequenceError ∨ e = .illegalCmd ∨ e = .lengthError) : ({ x with err := e } : Inst).Inv :=
  { h with
    inFlight := fun hb' => absurd (hb.symm.trans hb') (by decide)
    failedStart := fun hf => by rcases he with rfl | rfl | rfl <;> simp at hf }

theorem inv_unsupportedMode (h : x.Inv) (hb : x.busy = false) (ha : x.active = false) :
    ({ x.clearOutput with err := .unsupportedMode } : Inst).Inv where
  aligned := rfl
  closed := h.closed
  starting _ := ⟨ha, rfl⟩
  room _ := by simp
  updateRoom _ := by simp
  inFlight hb' := absurd (hb.symm.trans hb') (by decide)
  released := h.released
  noOutput _ := ⟨rfl, rfl⟩
  failedStart _ := ⟨ha, rfl⟩

theorem inv_acceptStart (ha : x.active = false) (md : Mode) : (x.clearOutput.acceptStart md).Inv where
  aligned := rfl
  closed _ := .inr rfl
  starting _ := ⟨ha, rfl⟩
  room _ := by simp
  updateRoom _ := by simp
  inFlight _ := ⟨rfl, rfl⟩
  released _ hp := by cases hp
  noOutput _ := ⟨rfl, rfl⟩
  failedStart _ := ⟨ha, rfl⟩

/-- In an open session, a block `b` latched by UPDATE or FINAL. -/
theorem inv_latch (h : x.Inv) (ha : x.active = true) (b : Bytes16) {op : PendOp} (hs : op ≠ .start) (hn : op ≠ .none)
    (hu : op = .update → x.outCount.toNat ≤ 2 ^ 32 - 48) :
    ({ x with err := .ok, outValid := false, inL := b, pendOp := op } : Inst).Inv where
  aligned := h.aligned
  closed hc := absurd (ha.symm.trans hc) (by decide)
  starting hp := absurd hp hs
  room := h.room
  updateRoom := hu
  inFlight _ := ⟨rfl, rfl⟩
  released _ hp := absurd hp hn
  noOutput hc := ⟨rfl, (h.noOutput hc).2⟩
  failedStart hf := by simp at hf

theorem inv_issue (h : x.Inv) (hb : x.busy = false) (c : Command) : (x.issue c).Inv := by
  rcases issue_cases c x with ⟨e, he, hy⟩ | ⟨m, -, ha, -, hy⟩ | ⟨md, -, ha, hy⟩ | ⟨-, ha, hc, hy⟩ | ⟨n, -, ha, hy⟩ <;> rw [hy]
  · exact inv_refuse h hb he
  · exact inv_unsupportedMode h hb ha
  · exact inv_acceptStart ha md
  · exact inv_latch h ha _ (by decide) (by decide) fun _ => hc
  · exact inv_latch h ha _ (by decide) (by decide) (by simp)

/-- UPDATE and FINAL are in flight only in an open session (R41). -/
theorem active_of_inFlight (h : x.Inv) (hp : x.pendOp = .update ∨ x.pendOp = .final) : x.active = true := by
  by_contra ha
  rcases h.closed (by simpa using ha) with hp' | hp' <;> simp [hp'] at hp

/-- One more block, of UPDATE or FINAL, does not wrap the counter (R145). -/
theorem outCount_add_block (h : x.Inv) (hp : x.pendOp = .update ∨ x.pendOp = .final) :
    (x.outCount + 16#32).toNat = x.outCount.toNat + 16 :=
  toNat_add_block (h.room (active_of_inFlight h hp))

theorem err_ok_of_inFlight (h : x.Inv) (hp : x.pendOp ≠ .none) : x.err = .ok := (h.inFlight (busy_iff.mpr hp)).1

theorem inv_completeStart (h : x.Inv) (hp : x.pendOp = .start) (ok : Bool) : (x.completeStart ok).Inv := by
  obtain ⟨ha, hc⟩ := h.starting hp
  have he := err_ok_of_inFlight h (by simp [hp])
  cases ok with
  | true =>
    exact
      { aligned := h.aligned
        closed := fun hf => by cases hf
        starting := fun hp' => by cases hp'
        room := fun _ => by simp [Inst.completeStart, hc]
        updateRoom := fun hp' => by cases hp'
        inFlight := fun hb => by cases hb
        released := fun hf => by cases hf
        noOutput := h.noOutput
        failedStart := fun hf => by simp [Inst.completeStart, he] at hf }
  | false =>
    exact
      { aligned := h.aligned
        closed := fun _ => .inl rfl
        starting := fun hp' => by cases hp'
        room := h.room
        updateRoom := fun hp' => by cases hp'
        inFlight := fun hb => by cases hb
        released := fun _ _ => ⟨rfl, rfl⟩
        noOutput := h.noOutput
        failedStart := fun _ => ⟨ha, hc⟩ }

/-- What a completed block leaves true whether the session stays open or not: the count is of whole blocks and not 0, and
the code is OK. -/
theorem inv_block (h : x.Inv) (hp : x.pendOp = .update ∨ x.pendOp = .final) :
    (x.outCount + 16#32).toNat % 16 = 0 ∧ x.outCount + 16#32 ≠ 0#32 ∧ x.err = .ok := by
  have hadd := outCount_add_block h hp
  have haligned := h.aligned
  refine ⟨by omega, fun h0 => ?_, err_ok_of_inFlight h (by rcases hp with hp | hp <;> simp [hp])⟩
  rw [h0, BitVec.toNat_ofNat] at hadd
  omega

theorem inv_completeUpdate (h : x.Inv) (hp : x.pendOp = .update) (E : Cipher) : (x.completeUpdate E).Inv := by
  obtain ⟨haligned, hne, he⟩ := inv_block h (.inl hp)
  have ha := active_of_inFlight h (.inl hp)
  exact
    { aligned := haligned
      closed := fun _ => .inl rfl
      starting := fun hp' => by cases hp'
      room := fun _ => by
        have hroom := h.updateRoom hp
        have hadd := outCount_add_block h (.inl hp)
        rw [Inst.completeUpdate_outCount]
        omega
      updateRoom := fun hp' => by cases hp'
      inFlight := fun hb => by cases hb
      released := fun hf => absurd (ha.symm.trans hf) (by decide)
      noOutput := fun hc => absurd hc hne
      failedStart := fun hf => by simp [he] at hf }

theorem inv_completeFinal (h : x.Inv) (hp : x.pendOp = .final) (E : Cipher) : (x.completeFinal E).Inv := by
  obtain ⟨haligned, hne, he⟩ := inv_block h (.inr hp)
  exact
    { aligned := haligned
      closed := fun _ => .inl rfl
      starting := fun hp' => by cases hp'
      room := fun hf => by cases hf
      updateRoom := fun hp' => by cases hp'
      inFlight := fun hb => by cases hb
      released := fun _ _ => ⟨rfl, rfl⟩
      noOutput := fun hc => absurd hc hne
      failedStart := fun hf => by simp [he] at hf }

theorem inv_engine (h : x.Inv) (k : Nat) : (x.engine k).Inv := by
  cases hp : x.pendOp with
  | none => exact (engine_idle (k := k) (not_busy_iff.mpr hp)).symm ▸ h
  | start => exact engine_start hp k ▸ inv_completeStart h hp _
  | update => exact engine_update hp k ▸ inv_completeUpdate h hp _
  | final => exact engine_final hp k ▸ inv_completeFinal h hp _

end

/-! ### The accesses that wait -/

section
variable {s t : State}

/-- The state a turn begins with. -/
def Turn.state : Turn → State
  | .run _ s | .complete _ s | .reset _ s | .resetAll s | .pass s => s

@[simp] theorem turn_state_insts (s : State) : s.turn.state.insts = s.insts := by
  rcases turn_cases s with ⟨pre, post, a, -, -, -, ht⟩ | ⟨-, ⟨addr, size, dir, es, j, off, -, -, ht⟩
      | ⟨addr, size, dir, es, -, -, ht⟩ | ⟨j, es, -, ht⟩ | ⟨j, es, -, ht⟩ | ⟨es, -, ht⟩ | ⟨j, z, -, -, -, ht⟩
      | ⟨-, -, ht⟩⟩ <;> rw [ht] <;> rfl

theorem turn_state_waiting (s : State) : s.turn.state.waiting ⊆ s.waiting := by
  rcases turn_cases s with ⟨pre, post, a, hw, -, -, ht⟩ | ⟨-, ⟨addr, size, dir, es, j, off, -, -, ht⟩
      | ⟨addr, size, dir, es, -, -, ht⟩ | ⟨j, es, -, ht⟩ | ⟨j, es, -, ht⟩ | ⟨es, -, ht⟩ | ⟨j, z, -, -, -, ht⟩
      | ⟨-, -, ht⟩⟩ <;> rw [ht]
  case inl => simp [Turn.state, hw]
  all_goals exact List.Subset.refl _

/-- An access that waits after a step waited before it, or is of the held kind and for an instance there is. -/
theorem step_waiting (h : step s = .next t) {a : Access} (ha : a ∈ t.waiting) :
    a ∈ s.waiting ∨ holdable a = true ∧ a.k < s.insts.length := by
  have hinsts := turn_state_insts s
  have hsub := turn_state_waiting s
  unfold step at h
  cases ht : s.turn <;> rw [ht] at h hinsts hsub <;> simp only [Turn.state] at h hinsts hsub
  case run b s' =>
    rcases exec_waiting h with hw | ⟨c, hk, hc, rfl⟩
    · exact .inl (hsub (hw ▸ ha))
    · rw [State.hold_waiting, List.mem_append, List.mem_singleton] at ha
      rcases ha with ha | rfl
      · exact .inl (hsub ha)
      · obtain ⟨x, hx, -⟩ := exec_effect h
        rw [← hk, hinsts] at hx
        exact .inr ⟨hc, index_lt hx⟩
  all_goals
    obtain rfl := Host.Outcome.next.inj h
    exact .inl (hsub ha)

/-! ### The machine -/

theorem step_keeps_inv (hs : s.Inv) (h : step s = .next t) : t.Inv where
  insts y hy := by
    obtain ⟨k, hk⟩ := List.mem_iff_getElem?.mp hy
    have hlt : k < s.insts.length := step_length h ▸ index_lt hk
    have hx : s.insts[k]? = some s.insts[k] := List.getElem?_eq_getElem hlt
    have hinv : s.insts[k].Inv := hs.insts _ (List.getElem_mem hlt)
    rcases step_inst_cases h hx hk with ⟨-, key, iv, din, rfl⟩ | ⟨c, -, hb, rfl⟩ | ⟨-, -, rfl⟩ | ⟨-, -, rfl⟩
    · exact inv_withInputs hinv key iv din
    · exact inv_issue hinv hb c
    · exact inv_engine hinv k
    · exact inv_resetEvent _
  waiting a ha := by
    rw [step_length h]
    exact (step_waiting h ha).elim (hs.waiting a) id

theorem run_keeps_inv {n : Nat} (hs : s.Inv) (h : Host.Core.run core n s = .next t) : t.Inv :=
  run_keeps (fun _ _ => step_keeps_inv) hs h

end

/-! ### The obligations -/

/-- Settles O13: after reset every instance is one that a reset event leaves, and nothing waits. -/
theorem resetMeetsInvariant : Obligations.ResetMeetsInvariant where
  insts x hx := by
    obtain rfl := List.eq_of_mem_replicate hx
    exact inv_resetEvent Inst.reset
  waiting a ha := by cases ha

/-- Settles O14: whatever a step does to an instance keeps its invariant, and what comes to wait is of the held kind. -/
theorem stepKeepsInvariant : Obligations.StepKeepsInvariant := fun _ _ => step_keeps_inv

/-- Settles O15: the bounds follow from the invariant, which every run keeps. -/
theorem outCountNeverWraps : Obligations.OutCountNeverWraps := by
  intro s t n x hs hrun hx
  have hinv : x.Inv := (run_keeps_inv hs hrun).insts x hx
  have haligned := hinv.aligned
  have hlt := x.outCount.isLt
  exact ⟨haligned, fun ha _ => hinv.room ha, by omega, outCount_add_block hinv⟩

end Sys2Proof.Machine
end

section
/-! Who writes what (10_state R25 to R38, 60_exceptions R209): each kind of step, and the fields it can change. -/

namespace Sys2Proof.Machine

/-! ### The event of a step decides what it does -/

section
variable {s t : State} {k : Nat} {x y : Inst} {op : PendOp}

theorem step_of_issues (h : step s = .next t) (hx : s.insts[k]? = some x) (hy : t.insts[k]? = some y) {i : Issue}
    (hi : s.issues? k = some i) : i = ⟨i.cmd, x.key, x.iv, x.din⟩ ∧ x.busy = false ∧ y = x.issue i.cmd := by
  rcases step_inst_cases h hx hy with ⟨hn, -⟩ | ⟨c, hc, hb, rfl⟩ | ⟨hn, -⟩ | ⟨hn, -⟩
  · simp [hi] at hn
  · obtain rfl := Option.some.inj (hi.symm.trans hc)
    exact ⟨rfl, hb, rfl⟩
  · simp [hi] at hn
  · simp [hi] at hn

theorem pendOp_of_completes (hx : s.insts[k]? = some x) (hc : s.completes k op) : x.pendOp = op := by
  obtain ⟨s', z, -, hz, hp⟩ := hc
  obtain rfl := Option.some.inj (hx.symm.trans hz)
  exact hp

theorem step_of_completes (h : step s = .next t) (hx : s.insts[k]? = some x) (hy : t.insts[k]? = some y)
    (hc : s.completes k op) : x.pendOp = op ∧ y = x.engine k := by
  refine ⟨pendOp_of_completes hx hc, ?_⟩
  obtain ⟨s', -, ht, -, -⟩ := hc
  have hinsts : s'.insts = s.insts := by simpa [ht, Turn.state] using turn_state_insts s
  obtain rfl := Host.Outcome.next.inj (h.symm.trans (step_complete ht))
  simpa [hinsts, hx] using hy.symm

theorem step_of_resets (h : step s = .next t) (hx : s.insts[k]? = some x) (hy : t.insts[k]? = some y)
    (hr : s.resets k) : y = x.resetEvent := by
  have hstate := turn_state_insts s
  obtain ⟨s', ht | ht⟩ := hr <;> rw [ht] at hstate
  · obtain rfl := Host.Outcome.next.inj (h.symm.trans (step_reset ht))
    simpa [show s'.insts = s.insts from hstate, hx] using hy.symm
  · obtain rfl := Host.Outcome.next.inj (h.symm.trans (step_resetAll ht))
    simpa [show s'.insts = s.insts from hstate, hx] using hy.symm

/-- A step that neither issues, completes nor resets leaves all but the inputs of the instance. -/
theorem step_of_none (h : step s = .next t) (hx : s.insts[k]? = some x) (hy : t.insts[k]? = some y)
    (hi : s.issues? k = none) (hc : x.pendOp ≠ .none → ¬ s.completes k x.pendOp) (hr : ¬ s.resets k) :
    ∃ key iv din, y = { x with key := key, iv := iv, din := din } := by
  rcases step_inst_cases h hx hy with ⟨-, hin⟩ | ⟨c, hc', -, -⟩ | ⟨-, hc', rfl⟩ | ⟨-, hr', -⟩
  · exact hin
  · simp [hi] at hc'
  · have hp : x.pendOp = .none := by_contra fun hne => hc hne hc'
    exact ⟨x.key, x.iv, x.din, engine_idle (not_busy_iff.mpr hp)⟩
  · exact absurd hr' hr

end

/-! ### Fields that an issue step or a completion leaves, and fields it writes -/

section
variable {x : Inst}

theorem issue_session (c : Command) (x : Inst) : (x.issue c).active = x.active ∧ (x.issue c).modeL = x.modeL := by
  rcases issue_cases c x with ⟨e, -, hy⟩ | ⟨m, -, -, -, hy⟩ | ⟨md, -, -, hy⟩ | ⟨-, -, -, hy⟩ | ⟨n, -, -, hy⟩ <;> rw [hy] <;>
    exact ⟨rfl, rfl⟩

/-- The checks of a command have passed exactly when its code is OK; then it is in flight (R29, R41). -/
theorem issue_pendOp (hb : x.busy = false) (c : Command) :
    if (x.issue c).err = .ok then (x.issue c).pendOp = pendOf c ∧ (x.active = false ↔ ∃ m, c = .start m)
    else (x.issue c).pendOp = .none := by
  have hp := not_busy_iff.mp hb
  rcases issue_cases c x with ⟨e, he, hy⟩ | ⟨m, -, -, -, hy⟩ | ⟨md, rfl, ha, hy⟩ | ⟨rfl, ha, -, hy⟩ | ⟨n, rfl, ha, hy⟩ <;>
    rw [hy]
  · rcases he with rfl | rfl | rfl <;> simp [hp]
  · simp [hp]
  · simp [ha, pendOf]
  · simp [ha, pendOf]
  · simp [ha, pendOf]

theorem issue_busy_iff (hb : x.busy = false) (c : Command) : (x.issue c).busy = true ↔ (x.issue c).err = .ok := by
  cases c with
  | start m => exact (reports_start hb m).busy_iff
  | update => exact (reports_update hb).busy_iff
  | final n => exact (reports_final hb n).busy_iff
  | illegal w => exact (reports_illegal hb w).busy_iff

theorem completeStart_output (ok : Bool) (x : Inst) : (x.completeStart ok).outCount = x.outCount
    ∧ (x.completeStart ok).dout = x.dout ∧ (x.completeStart ok).outValid = x.outValid := by
  cases ok <;> exact ⟨rfl, rfl, rfl⟩

@[simp] theorem completeStart_pendOp (ok : Bool) (x : Inst) : (x.completeStart ok).pendOp = .none := by
  cases ok <;> rfl



@[simp] theorem completeStart_active (ok : Bool) (x : Inst) : (x.completeStart ok).active = (ok || x.active) := by
  cases ok <;> rfl

end

/-! ### The obligations -/

/-- Settles O16: the step's event decides what it does, and the invariant says where the session stands when a completion
comes. -/
theorem controlMovesByTheTable : Obligations.ControlMovesByTheTable := by
  intro s t k x y hs h hx hy
  have hinv : x.Inv := hs.insts x (List.mem_of_getElem? hx)
  have hinv' : y.Inv := (step_keeps_inv hs h).insts y (List.mem_of_getElem? hy)
  refine ⟨fun i hi => ?_, fun hc => ?_, fun hc => ?_, fun hc => ?_, fun hr => ?_, fun hi hcs hcu hcf hr => ?_,
    fun ⟨ha, hp⟩ => absurd (ha.symm.trans (hinv'.starting hp).1) (by decide)⟩
  · obtain ⟨-, hb, rfl⟩ := step_of_issues h hx hy hi
    exact ⟨not_busy_iff.mp hb, (issue_session i.cmd x).1, issue_pendOp hb i.cmd⟩
  · obtain ⟨hp, rfl⟩ := step_of_completes h hx hy hc
    have ha := (hinv.starting hp).1
    simp [engine_start hp, ha, initOk_iff]
  · obtain ⟨hp, rfl⟩ := step_of_completes h hx hy hc
    have ha := active_of_inFlight hinv (.inl hp)
    simp [engine_update hp, ha]
  · obtain ⟨hp, rfl⟩ := step_of_completes h hx hy hc
    have ha := active_of_inFlight hinv (.inr hp)
    simp [engine_final hp, ha]
  · obtain rfl := step_of_resets h hx hy hr
    exact ⟨rfl, rfl⟩
  · have hc : x.pendOp ≠ .none → ¬ s.completes k x.pendOp := fun hne hc => by
      cases hp : x.pendOp <;> rw [hp] at hc hne
      · exact hne rfl
      · exact hcs hc
      · exact hcu hc
      · exact hcf hc
    obtain ⟨key, iv, din, rfl⟩ := step_of_none h hx hy hi hc hr
    exact ⟨rfl, rfl⟩

/-- Settles O41: an issue step leaves ACTIVE and MODE, a completion opens or closes the session by what it completes, and a
reset clears all. -/
theorem sessionStateWriters : Obligations.SessionStateWriters := by
  intro s t k x y h hx hy
  rcases step_inst_cases h hx hy with ⟨-, key, iv, din, rfl⟩ | ⟨c, hi, hb, rfl⟩ | ⟨-, hc, rfl⟩ | ⟨-, hr, rfl⟩
  · refine ⟨?_, ?_, ?_, ?_, fun hm => absurd rfl hm⟩ <;> exact fun h0 h1 => absurd (h0.symm.trans h1) (by decide)
  · obtain ⟨ha, hm⟩ := issue_session c x
    refine ⟨fun h0 h1 => ?_, fun h0 h1 => ?_, fun _ _ => by simp [hi], fun h0 _ => ?_, fun hne => absurd hm hne⟩
    · simp [ha, h0] at h1
    · simp [ha, h0] at h1
    · simp [hb] at h0
  · have hnb := engine_not_busy k x
    refine ⟨fun h0 h1 => ?_, fun h0 h1 => ?_, fun _ h1 => ?_, fun _ _ => .inl hc, fun hne => ?_⟩
    · cases hp : x.pendOp <;> rw [hp] at hc
      case start => exact ⟨hc, by simpa [engine_start hp, h0] using h1⟩
      all_goals simp [engine_eq, hp, h0] at h1
    · cases hp : x.pendOp <;> rw [hp] at hc
      case final => exact .inl hc
      all_goals simp [engine_eq, hp, h0] at h1
    · simp [hnb] at h1
    · cases hp : x.pendOp <;> rw [hp] at hc
      case start =>
        rw [engine_start hp] at hne ⊢
        cases hok : Config.initOk k x.draws <;> rw [hok] at hne
        · exact absurd rfl hne
        · exact .inr ⟨hc, rfl, rfl⟩
      all_goals simp [engine_eq, hp] at hne
  · simp [hr, Inst.busy, Inst.reset]

/-- Settles O42: a refusal leaves the output, an issued START clears it, an accepted UPDATE or FINAL clears OUT_VALID, and
of the completions those of UPDATE and FINAL put out a block. -/
theorem outputWriters : Obligations.OutputWriters := by
  intro s t k x y h hx hy
  rcases step_inst_cases h hx hy with ⟨-, key, iv, din, rfl⟩ | ⟨c, hi, hb, rfl⟩ | ⟨-, hc, rfl⟩ | ⟨-, hr, rfl⟩
  · exact .inl ⟨rfl, rfl, rfl⟩
  · rcases issue_cases c x with ⟨e, -, hy⟩ | ⟨m, rfl, ha, -, hy⟩ | ⟨md, rfl, ha, hy⟩ | ⟨rfl, ha, -, hy⟩ | ⟨n, rfl, ha, hy⟩ <;>
      rw [hy]
    · exact .inl ⟨rfl, rfl, rfl⟩
    · exact .inr (.inl ⟨rfl, packBlock_zero, rfl, .inr ⟨ha, _, m, hi, rfl⟩⟩)
    · exact .inr (.inl ⟨rfl, packBlock_zero, rfl, .inr ⟨ha, _, _, hi, rfl⟩⟩)
    · exact .inr (.inr (.inl ⟨rfl, rfl, rfl, ha, rfl, _, hi, .inl rfl⟩))
    · exact .inr (.inr (.inl ⟨rfl, rfl, rfl, ha, rfl, _, hi, .inr ⟨n, rfl⟩⟩))
  · cases hp : x.pendOp with
    | none => exact .inl (by rw [engine_idle (not_busy_iff.mpr hp)]; exact ⟨rfl, rfl, rfl⟩)
    | start => exact .inl (engine_start hp k ▸ completeStart_output _ x)
    | update =>
      rw [← engine_dout (.inl hp) k, engine_update hp]
      exact .inr (.inr (.inr ⟨rfl, rfl, rfl, .inl (hp ▸ hc)⟩))
    | final =>
      rw [← engine_dout (.inr hp) k, engine_final hp]
      exact .inr (.inr (.inr ⟨rfl, rfl, rfl, .inr (hp ▸ hc)⟩))
  · exact .inr (.inl ⟨rfl, rfl, rfl, .inl hr⟩)

/-- Settles O43: of the completions only that of a failed START writes ERR. -/
theorem errWriters : Obligations.ErrWriters := by
  intro s t k x y h hx hy
  refine ⟨fun hne => ?_, fun i hi => ?_⟩
  · rcases step_inst_cases h hx hy with ⟨-, key, iv, din, rfl⟩ | ⟨c, hi, -, -⟩ | ⟨-, hc, rfl⟩ | ⟨-, hr, -⟩
    · exact absurd rfl hne
    · exact .inl (by simp [hi])
    · cases hp : x.pendOp with
      | none => exact absurd (by rw [engine_idle (not_busy_iff.mpr hp)]) hne
      | start =>
        rw [engine_start hp] at hne ⊢
        cases hok : Config.initOk k x.draws <;> rw [hok] at hne
        · exact .inr (.inr ⟨hp ▸ hc, rfl, rfl⟩)
        · exact absurd rfl hne
      | update => exact absurd (by rw [engine_update hp, Inst.completeUpdate_err]) hne
      | final => exact absurd (by rw [engine_final hp, Inst.completeFinal_err]) hne
    · exact .inr (.inl hr)
  · obtain ⟨-, hb, rfl⟩ := step_of_issues h hx hy hi
    exact ⟨hb, rfl, issue_busy_iff hb i.cmd⟩

/-- Settles O44: START's issue latches KEY and IV, the issue of UPDATE and FINAL the block; completions chain the block in
CBC or release the context. -/
theorem contextWriters : Obligations.ContextWriters := by
  intro s t k x y h hx hy hr
  rcases step_inst_cases h hx hy with ⟨-, key, iv, din, rfl⟩ | ⟨c, hi, hb, rfl⟩ | ⟨-, hc, rfl⟩ | ⟨-, hr', -⟩
  · exact ⟨fun hne => absurd rfl hne, fun hne => absurd rfl hne, fun hne => absurd rfl hne⟩
  · rcases issue_cases c x with ⟨e, -, hy⟩ | ⟨m, rfl, ha, -, hy⟩ | ⟨md, rfl, ha, hy⟩ | ⟨rfl, ha, -, hy⟩ | ⟨n, rfl, ha, hy⟩ <;>
      rw [hy]
    · exact ⟨fun hne => absurd rfl hne, fun hne => absurd rfl hne, fun hne => absurd rfl hne⟩
    · exact ⟨fun hne => absurd rfl hne, fun hne => absurd rfl hne, fun hne => absurd rfl hne⟩
    · exact ⟨fun _ => .inl ⟨rfl, _, _, hi, rfl⟩, fun _ => .inl ⟨rfl, _, _, hi, rfl⟩, fun hne => absurd rfl hne⟩
    · exact ⟨fun hne => absurd rfl hne, fun hne => absurd rfl hne, fun _ => ⟨_, hi, .inl ⟨rfl, rfl⟩⟩⟩
    · exact ⟨fun hne => absurd rfl hne, fun hne => absurd rfl hne, fun _ => ⟨_, hi, .inr ⟨n, rfl, rfl⟩⟩⟩
  · cases hp : x.pendOp with
    | none =>
      rw [engine_idle (not_busy_iff.mpr hp)]
      exact ⟨fun hne => absurd rfl hne, fun hne => absurd rfl hne, fun hne => absurd rfl hne⟩
    | start =>
      rw [hp] at hc
      rw [engine_start hp]
      cases Config.initOk k x.draws
      · exact ⟨fun _ => .inr ⟨rfl, .inr ⟨hc, rfl⟩⟩, fun _ => .inr (.inl ⟨rfl, .inr ⟨hc, rfl⟩⟩), fun hne => absurd rfl hne⟩
      · exact ⟨fun hne => absurd rfl hne, fun hne => absurd rfl hne, fun hne => absurd rfl hne⟩
    | update =>
      rw [hp] at hc
      rw [engine_update hp]
      refine ⟨fun hne => absurd rfl hne, fun hne => .inr (.inr ?_), fun hne => absurd rfl hne⟩
      rw [Inst.completeUpdate_chain, Inst.completeUpdate_dout] at *
      cases hm : x.modeL <;> rw [hm] at hne
      · exact absurd rfl hne
      · exact ⟨rfl, rfl, hc⟩
    | final =>
      rw [hp] at hc
      rw [engine_final hp]
      exact ⟨fun _ => .inr ⟨rfl, .inl hc⟩, fun _ => .inr (.inl ⟨rfl, .inl hc⟩), fun hne => absurd rfl hne⟩
  · exact absurd hr' hr

/-- Settles O45: a refusal leaves the output or, for an unknown mode, clears it, and a START that fails at its completion
had it cleared at its issue. -/
theorem noPartialOutput : Obligations.NoPartialOutput := by
  intro s t k x y hs h hx hy hev hne
  have hinv : x.Inv := hs.insts x (List.mem_of_getElem? hx)
  rcases hev with hi | hc
  · obtain ⟨i, hi⟩ := Option.isSome_iff_exists.mp hi
    obtain ⟨-, hb, rfl⟩ := step_of_issues h hx hy hi
    rcases issue_cases i.cmd x with ⟨e, he, hy⟩ | ⟨m, -, ha, -, hy⟩ | ⟨md, -, -, hy⟩ | ⟨-, -, -, hy⟩ | ⟨n, -, -, hy⟩ <;>
      rw [hy] at hne ⊢
    · exact ⟨fun hf => by rcases he with rfl | rfl | rfl <;> simp at hf, fun _ => ⟨rfl, rfl, rfl, rfl⟩⟩
    · exact ⟨fun _ => ⟨rfl, rfl, packBlock_zero, ha⟩, by simp⟩
    · exact absurd rfl hne
    · exact absurd rfl hne
    · exact absurd rfl hne
  · obtain ⟨hp, rfl⟩ := step_of_completes h hx hy hc
    obtain ⟨ha, hcount⟩ := hinv.starting hp
    obtain ⟨hvalid, hdout⟩ := hinv.noOutput hcount
    rw [engine_start hp] at hne ⊢
    cases hok : Config.initOk k x.draws <;> rw [hok] at hne
    · exact ⟨fun _ => ⟨hcount, hvalid, hdout.trans packBlock_zero, ha⟩, by simp [Inst.completeStart]⟩
    · exact absurd (err_ok_of_inFlight hinv (by simp [hp])) hne

end Sys2Proof.Machine
end

section
/-! Every run ends (41_commands R140): each step costs at least one of the steps a run can take at most. -/

namespace Sys2Proof.Machine

/-! ### How many engines are busy -/

section
variable {l : List Inst} {k : Nat} {x : Inst} {f : Inst → Inst}

theorem busy_count_modify_le (hf : ∀ x, (f x).busy = false) (l : List Inst) (k : Nat) :
    ((l.modify k f).filter Inst.busy).length ≤ (l.filter Inst.busy).length := by
  cases hx : l[k]? with
  | none => rw [List.modify_eq_self (List.getElem?_eq_none_iff.mp hx)]
  | some x =>
    have hcount := busy_count_set hx (f x)
    rw [hf] at hcount
    rw [modify_eq_set hx]
    simp only [Bool.toNat_false] at hcount
    omega

theorem busy_count_modify_lt (hf : ∀ x, (f x).busy = false) (hx : l[k]? = some x) (hb : x.busy = true) :
    ((l.modify k f).filter Inst.busy).length < (l.filter Inst.busy).length := by
  have hcount := busy_count_set hx (f x)
  rw [hf, hb] at hcount
  rw [modify_eq_set hx]
  simp only [Bool.toNat_false, Bool.toNat_true] at hcount
  omega

theorem resetEvent_not_busy (x : Inst) : x.resetEvent.busy = false := rfl

end

/-! ### The cost of a step -/

section
variable {s t : State}

theorem cost_eq_zero_iff : s.cost = 0 ↔ s.over := by
  simp only [State.cost, State.over, Nat.add_eq_zero_iff, Nat.mul_eq_zero, List.length_eq_zero_iff,
    List.filter_eq_nil_iff, Bool.not_eq_true]
  tauto

/-- An instruction adds one busy engine at most, or, when it is held, one waiting access. -/
theorem exec_cost {i : Instr} (h : exec i s = .next t) :
    t.cost ≤ s.cost + 1 ∨ t.resp = some .held ∧ t.cost = s.cost + 2 := by
  obtain ⟨x, hx, ⟨-, r, -, rfl⟩ | ⟨-, key, iv, din, rfl⟩ | ⟨c, -, hb, rfl⟩ | ⟨a, -, -, -, rfl⟩⟩ := exec_effect h
  · exact .inl (Nat.le_succ _)
  · have hcount := busy_count_set hx { x with key := key, iv := iv, din := din }
    have hbusy : ({ x with key := key, iv := iv, din := din } : Inst).busy = x.busy := rfl
    simp only [hbusy, State.cost, State.respond_insts, State.respond_waiting, State.respond_events, State.setInst_insts,
      State.setInst_waiting, State.setInst_events] at hcount ⊢
    omega
  · have hcount := busy_count_set hx (x.issue c)
    have hle := (x.issue c).busy.toNat_le
    simp only [State.cost, State.respond_insts, State.respond_waiting, State.respond_events, State.setInst_insts,
      State.setInst_waiting, State.setInst_events] at hcount ⊢
    omega
  · refine .inr ⟨rfl, ?_⟩
    simp only [State.cost, State.hold_insts, State.hold_waiting, State.hold_events, List.length_append,
      List.length_singleton]
    omega

/-- An access that need not wait is not held. -/
theorem exec_not_held {a : Access} (ha : s.blocked a = false) (h : exec (decodeAccess a) s = .next t) :
    t.resp ≠ some .held := by
  intro hr
  have hhold := holdable_of_exec_held h hr
  have hbusy := (exec_held h hr).1
  rw [decodeAccess_target] at hbusy
  simp [State.blocked, hhold, hbusy] at ha

theorem exec_access_total {a : Access} (h : a.k < s.insts.length) : ∃ t, exec (decodeAccess a) s = .next t :=
  exec_total (x := s.insts[a.k]) (by rw [decodeAccess_target, List.getElem?_eq_getElem h])

/-- A step answers, and brings the end of the run at least one step nearer. -/
theorem step_cost (hw : ∀ a ∈ s.waiting, a.k < s.insts.length) : ∃ t, step s = .next t ∧ t.cost ≤ s.cost - 1 := by
  rcases turn_cases s with ⟨pre, post, a, hwait, -, ha, ht⟩ | ⟨hblocked, ⟨addr, size, dir, es, k, off, he, hr, ht⟩
      | ⟨addr, size, dir, es, he, -, ht⟩ | ⟨k, es, he, ht⟩ | ⟨k, es, he, ht⟩ | ⟨es, he, ht⟩ | ⟨k, x, he, hx, hb, ht⟩
      | ⟨he, hidle, ht⟩⟩
  · obtain ⟨t, h⟩ := exec_access_total (s := { s with waiting := pre ++ post, resp := none }) (hw a (by simp [hwait]))
    refine ⟨t, (step_run ht).trans h, ?_⟩
    have hready : State.blocked { s with waiting := pre ++ post, resp := none } a = false := ha
    have hcost := (exec_cost h).resolve_right fun hheld => exec_not_held hready h hheld.1
    simp only [State.cost, hwait, List.length_append, List.length_cons] at hcost ⊢
    omega
  · obtain ⟨t, h⟩ := exec_access_total (s := { s with events := es, resp := none }) (a := ⟨k, off, size, dir⟩)
      (route_some hr)
    refine ⟨t, (step_run ht).trans h, ?_⟩
    have hcost := exec_cost h
    simp only [State.cost, he, List.length_cons] at hcost ⊢
    omega
  · refine ⟨_, step_pass ht, ?_⟩
    simp only [State.cost, he, List.length_cons]
    omega
  · refine ⟨_, step_complete ht, ?_⟩
    have hcount := busy_count_modify_le (engine_not_busy k) s.insts k
    simp only [State.cost, he, List.length_cons, State.engineMoves_insts, State.engineMoves_waiting,
      State.engineMoves_events]
    omega
  · refine ⟨_, step_reset ht, ?_⟩
    have hcount := busy_count_modify_le resetEvent_not_busy s.insts k
    simp only [State.cost, he, List.length_cons, State.resetInst_insts, State.resetInst_waiting, State.resetInst_events]
    omega
  · refine ⟨_, step_resetAll ht, ?_⟩
    have hcount : ((s.insts.map Inst.resetEvent).filter Inst.busy).length = 0 := by
      simp [List.filter_eq_nil_iff, resetEvent_not_busy]
    simp only [State.cost, he, List.length_cons, State.resetInsts_insts, State.resetInsts_waiting,
      State.resetInsts_events, hcount]
    omega
  · refine ⟨_, step_complete ht, ?_⟩
    have hcount := busy_count_modify_lt (engine_not_busy k) hx hb
    simp only [State.cost, State.engineMoves_insts, State.engineMoves_waiting, State.engineMoves_events]
    omega
  · have hnone : s.waiting = [] := List.eq_nil_iff_forall_not_mem.mpr fun a ha => by
      obtain ⟨x, hx, hb⟩ := busyAt_iff.mp ((Bool.and_eq_true _ _).mp (hblocked a ha)).2
      simp [hidle x (List.mem_of_getElem? hx)] at hb
    exact ⟨_, step_pass ht, (cost_eq_zero_iff.mpr ⟨hnone, he, hidle⟩).le.trans (Nat.zero_le _)⟩

theorem run_over {n : Nat} (hw : ∀ a ∈ s.waiting, a.k < s.insts.length) (hn : s.cost ≤ n) :
    ∃ t, Host.Core.run core n s = .next t ∧ t.over := by
  induction n generalizing s with
  | zero => exact ⟨s, rfl, cost_eq_zero_iff.mp (Nat.le_zero.mp hn)⟩
  | succ n ih =>
    obtain ⟨u, hu, hcost⟩ := step_cost hw
    have hwu : ∀ a ∈ u.waiting, a.k < u.insts.length := fun a ha => by
      rw [step_length hu]
      exact (step_waiting hu ha).elim (hw a) And.right
    rw [run_succ n hu]
    exact ih hwu (by omega)

end

/-- Settles O30: every step brings the end nearer, and with nothing left to pay the run is over. -/
theorem everyRunEnds : Obligations.EveryRunEnds := fun _ hw => run_over hw (le_refl _)

end Sys2Proof.Machine
end

section
/-! The reference functions (40_mode_semantics): padding's blocks (R104), the two modes (R105, R106, R113), and the inverse
(R116 to R118). -/

namespace Sys2Proof.Machine

/-! ### The padded plaintext -/

theorem joinBlocks_chunks_pad (p : List Byte) : joinBlocks (chunks (pad p)) = pad p :=
  joinBlocks_chunks (pad_length_mod p)

theorem chunks_pad_length (p : List Byte) : (chunks (pad p)).length = p.length / 16 + 1 := by
  have hjoin := congrArg List.length (joinBlocks_chunks_pad p)
  rw [joinBlocks_length, pad_length] at hjoin
  omega

/-- Block `i` of the padded plaintext, as bytes. -/
theorem getElem?_chunks_pad {p : List Byte} {i : Nat} (h : i ≤ p.length / 16) :
    ((chunks (pad p))[i]?).map blockBytes = some (((pad p).drop (16 * i)).take 16) := by
  rw [getElem?_joinBlocks (by rw [chunks_pad_length]; omega), joinBlocks_chunks_pad]

/-! ### The two modes, on blocks -/

@[simp] theorem chunks_transform (E : Cipher) (md : Mode) (key iv : Bytes16) (p : List Byte) :
    chunks (transform E md key iv p) = encryptBlocks E md key iv (chunks (pad p)) := chunks_joinBlocks _

theorem xorBlock_zero_left (b : Bytes16) : xorBlock zeroBlock b = b := by
  simp [xorBlock, zeroBlock, repBlock, Quad.fill, Quad.zipWith]

theorem cipher_injective {E D : Cipher} (h : CipherPerm E D) {key a b : Bytes16} (he : E key a = E key b) : a = b := by
  rw [← (h key a).1, he, (h key b).1]

/-- The first block of 32 zero bytes, padded, and the second are zero. -/
theorem chunks_pad_zeros : chunks (pad (List.replicate 32 0#8)) = [zeroBlock, zeroBlock, repBlock 16#8] := by decide

/-! ### The inverse -/

theorem decryptBlocks_cons (D : Cipher) (md : Mode) (key iv c : Bytes16) (cs : List Bytes16) :
    decryptBlocks D md key iv (c :: cs) = chainIn md iv (D key c) :: decryptBlocks D md key (chainOut md iv c) cs := by
  cases md <;> rfl

theorem chainIn_chainIn (md : Mode) (iv b : Bytes16) : chainIn md iv (chainIn md iv b) = b := by
  cases md
  · rfl
  · exact xorBlock_self_right b iv

theorem decryptBlocks_encryptBlocks {E D : Cipher} (h : CipherPerm E D) (md : Mode) (key iv : Bytes16)
    (bs : List Bytes16) : decryptBlocks D md key iv (encryptBlocks E md key iv bs) = bs := by
  induction bs generalizing iv with
  | nil => cases md <;> rfl
  | cons b bs ih => rw [encryptBlocks_cons, decryptBlocks_cons, (h key _).1, chainIn_chainIn, ih]

theorem padLen_pos (l : Nat) : 1 ≤ padLen l ∧ padLen l ≤ 16 := by
  unfold padLen
  omega

/-- The padding's last byte is its length, and all its bytes are that. -/
theorem unpad_pad (p : List Byte) : unpad (pad p) = some p := by
  obtain ⟨hpos, hle⟩ := padLen_pos p.length
  have hv : (BitVec.ofNat 8 (padLen p.length)).toNat = padLen p.length := by
    rw [BitVec.toNat_ofNat]
    omega
  have hlast : (pad p).getLast? = some (BitVec.ofNat 8 (padLen p.length)) := by
    rw [pad, List.getLast?_append, List.getLast?_replicate, if_neg (by omega)]
    rfl
  have hlen : (pad p).length - padLen p.length = p.length := by
    rw [pad, List.length_append, List.length_replicate]
    omega
  simp only [unpad, hlast, hv, hlen]
  rw [if_pos ⟨hpos, hle, by simp [pad]⟩]
  simp [pad]

/-! ### The obligations -/

/-- Settles O52: block `i` is the bytes from `16 i` on, of which padding touches only those of the last block. -/
theorem paddedBlocks : Obligations.PaddedBlocks := by
  intro p
  refine ⟨joinBlocks_chunks_pad p, chunks_pad_length p, fun i hi => ?_, ?_⟩
  · rw [getElem?_chunks_pad hi.le, pad, List.drop_append_of_le_length (by omega), List.take_append_of_le_length]
    rw [List.length_drop]
    omega
  · rw [getElem?_chunks_pad le_rfl, pad, List.drop_append_of_le_length (by omega), List.take_of_length_le]
    · rfl
    · rw [List.length_append, List.length_drop, List.length_replicate, padLen]
      omega

/-- Settles O53: in NoChaining each block goes to its cipher block alone. -/
theorem ecbBlocksAreIndependent : Obligations.EcbBlocksAreIndependent := by
  intro E key iv iv' p i j
  refine ⟨rfl, fun h => ?_⟩
  rw [chunks_transform, encryptBlocks, List.getElem?_map, List.getElem?_map, h]

/-- Settles O54: the first two blocks are zero, and exclusive-or with zero is the identity; the cipher is injective. -/
theorem cbcEqualBlocks : Obligations.CbcEqualBlocks := by
  intro E D key iv
  rw [chunks_transform, chunks_pad_zeros]
  simp only [encryptBlocks, cbcEncrypt, xorBlock_zero_left]
  exact ⟨rfl, rfl, fun hperm => ⟨fun he => (cipher_injective hperm he).symm, fun he => congrArg (E key) he.symm⟩⟩

/-- Settles O55: the blocks are decrypted to the padded plaintext's, and the padding is taken off. -/
theorem decInvertsTransform : Obligations.DecInvertsTransform := by
  intro E D md key iv p hperm
  rw [dec, chunks_transform, decryptBlocks_encryptBlocks hperm, joinBlocks_chunks_pad, unpad_pad]

end Sys2Proof.Machine
end

section
/-! Sessions at the level of commands (41_commands R146, R148): the timing of completions does not matter, and commands
completed at once compute the reference transform. -/

namespace Sys2Proof.Machine

/-! ### The schedule of a run without resets -/

section
variable {s t : State} {k : Nat}

theorem exec_events {i : Instr} (h : exec i s = .next t) : t.events = s.events := by
  obtain ⟨x, -, ⟨-, r, -, rfl⟩ | ⟨-, key, iv, din, rfl⟩ | ⟨c, -, -, rfl⟩ | ⟨a, -, -, -, rfl⟩⟩ := exec_effect h <;> rfl

theorem turn_state_events (s : State) : s.turn.state.events ⊆ s.events := by
  have htail {e : Event} {es : List Event} (he : s.events = e :: es) : es ⊆ s.events :=
    he ▸ List.subset_cons_self e es
  rcases turn_cases s with ⟨pre, post, a, -, -, -, ht⟩ | ⟨-, ⟨addr, size, dir, es, j, off, he, -, ht⟩
      | ⟨addr, size, dir, es, he, -, ht⟩ | ⟨j, es, he, ht⟩ | ⟨j, es, he, ht⟩ | ⟨es, he, ht⟩ | ⟨j, z, -, -, -, ht⟩
      | ⟨-, -, ht⟩⟩ <;> rw [ht]
  · exact List.Subset.refl _
  · exact htail he
  · exact htail he
  · exact htail he
  · exact htail he
  · exact htail he
  · exact List.Subset.refl _
  · exact List.Subset.refl _

/-- A step takes events away and adds none. -/
theorem step_events (h : step s = .next t) : t.events ⊆ s.events := by
  have hsub := turn_state_events s
  unfold step at h
  cases ht : s.turn <;> rw [ht] at h hsub <;> simp only [Turn.state] at h hsub
  case run a s' => rwa [exec_events h]
  all_goals
    obtain rfl := Host.Outcome.next.inj h
    exact hsub

/-- A step resets an instance only by an event to come. -/
theorem event_of_resets (h : s.resets k) : .reset k ∈ s.events ∨ .resetAll ∈ s.events := by
  obtain ⟨s', hr⟩ := h
  rcases turn_cases s with ⟨pre, post, a, -, -, -, ht⟩ | ⟨-, ⟨addr, size, dir, es, j, off, he, -, ht⟩
      | ⟨addr, size, dir, es, he, -, ht⟩ | ⟨j, es, he, ht⟩ | ⟨j, es, he, ht⟩ | ⟨es, he, ht⟩ | ⟨j, z, -, -, -, ht⟩
      | ⟨-, -, ht⟩⟩ <;> rw [ht] at hr <;> simp at hr
  · exact .inl (by simp [he, hr.1])
  · exact .inr (by simp [he])

end

/-! ### Replay -/

section
variable {k : Nat} {x x' y z : Inst} {is : List Issue}

/-- A command sees the inputs of its own issue step only. -/
theorem perform_forgetInputs (h : x.forgetInputs = x'.forgetInputs) (i : Issue) : x.perform k i = x'.perform k i :=
  (congrArg (fun u : Inst => ((u.withInputs i).issue i.cmd).engine k) h :)

theorem replay_forgetInputs (h : x.forgetInputs = x'.forgetInputs) (is : List Issue) :
    (x.replay k is).forgetInputs = (x'.replay k is).forgetInputs := by
  cases is with
  | nil => exact h
  | cons i is => exact congrArg (fun u : Inst => (u.replay k is).forgetInputs) (perform_forgetInputs h i)

/-- A step adds to the replay of an instance, with what is in flight completed, the command it issues and nothing else. -/
theorem step_replay {s u : State} (h : step s = .next u) (hx : s.insts[k]? = some x) (hz : u.insts[k]? = some z)
    (hr : ¬ s.resets k) (is : List Issue) : ((z.engine k).replay k is).forgetInputs
      = ((x.engine k).replay k ((s.issues? k).toList ++ is)).forgetInputs := by
  rcases step_inst_cases h hx hz with ⟨hn, key, iv, din, rfl⟩ | ⟨c, hi, hb, rfl⟩ | ⟨hn, -, rfl⟩ | ⟨-, hr', -⟩
  · rw [hn, engine_inputs]
    exact replay_forgetInputs (x := { x.engine k with key := key, iv := iv, din := din }) (x' := x.engine k) rfl is
  · rw [hi, engine_idle hb]
    rfl
  · rw [hn, engine_idle (engine_not_busy k x)]
    rfl
  · exact absurd hr' hr

end

/-! ### A session, command by command -/

section
variable {k n : Nat} {x : Inst} {md : Mode} {key c d : Bytes16} {i : Issue}

/-- A session of mode `md` is open and idle, with the key and the chaining value given and `n` blocks put out. -/
structure SessionOpen (x : Inst) (md : Mode) (key c : Bytes16) (n : Nat) : Prop where
  active : x.active = true
  idle : x.busy = false
  modeL : x.modeL = md
  keyL : x.keyL = key
  chain : x.chain = c
  outCount : x.outCount.toNat = 16 * n

/-- A session of mode `md` is closed by its FINAL, with `n` blocks put out and the last of them valid. -/
structure SessionClosed (x : Inst) (md : Mode) (n : Nat) : Prop where
  active : x.active = false
  idle : x.busy = false
  modeL : x.modeL = md
  outCount : x.outCount.toNat = 16 * n
  outValid : x.outValid = true
  err : x.err = .ok

/-- No session is open, nothing is in flight, and there is no output. -/
structure NoSession (x : Inst) : Prop where
  active : x.active = false
  idle : x.busy = false
  outCount : x.outCount = 0#32
  outValid : x.outValid = false
  dout : x.dout = Quad.fill 0#32

theorem perform_start (ha : x.active = false) (hc : i.cmd = .start (modeCode md)) : x.perform k i
    = ((x.withInputs i).clearOutput.acceptStart md).completeStart (Config.initOk k x.draws) := by
  rw [Inst.perform, hc, Inst.issue, issueStart_closed (x := x.withInputs i) ha]
  rfl

theorem perform_update (h : SessionOpen x md key c n) (hn : 16 * n ≤ 2 ^ 32 - 48) (hc : i.cmd = .update) : x.perform k i
    = Inst.completeUpdate Config.cipher
        { x.withInputs i with err := .ok, outValid := false, inL := unpackBlock i.din, pendOp := .update } := by
  rw [Inst.perform, hc, Inst.issue, issueUpdate_room (x := x.withInputs i) h.active (h.outCount.le.trans hn)]
  rfl

theorem perform_final (h : SessionOpen x md key c n) {m : BitVec 4} (hc : i.cmd = .final m) : x.perform k i
    = Inst.completeFinal Config.cipher
        { x.withInputs i with
          err := .ok, outValid := false, inL := padBlock m.toNat (unpackBlock i.din), pendOp := .final } := by
  rw [Inst.perform, hc, Inst.issue, issueFinal_open (x := x.withInputs i) h.active]
  rfl

theorem start_opens (ha : x.active = false) (hc : i.cmd = .start (modeCode md)) (hok : Config.initOk k x.draws = true) :
    SessionOpen (x.perform k i) md (unpackBlock i.key) (unpackBlock i.iv) 0 := by
  rw [perform_start ha hc, hok]
  exact ⟨rfl, rfl, rfl, rfl, rfl, rfl⟩

theorem start_fails (ha : x.active = false) (hc : i.cmd = .start (modeCode md))
    (hok : Config.initOk k x.draws = false) : NoSession (x.perform k i) ∧ (x.perform k i).err = .initError := by
  rw [perform_start ha hc, hok]
  exact ⟨⟨ha, rfl, rfl, rfl, packBlock_zero⟩, rfl⟩

/-- UPDATE in a session with room puts out its block and hands on the chaining value. -/
theorem update_step (h : SessionOpen x md key c n) (hn : 16 * n ≤ 2 ^ 32 - 48) (hc : i.cmd = .update) :
    unpackBlock (x.perform k i).dout = Config.cipher key (chainIn md c (unpackBlock i.din))
    ∧ SessionOpen (x.perform k i) md key
        (chainOut md c (Config.cipher key (chainIn md c (unpackBlock i.din)))) (n + 1) := by
  have hcount : (x.outCount + 16#32).toNat = 16 * (n + 1) := by
    rw [toNat_add_block (by have := h.outCount; omega), h.outCount]
    omega
  rw [perform_update h hn hc]
  obtain ⟨ha, -, rfl, rfl, rfl, -⟩ := h
  exact ⟨unpackBlock_packBlock _, ha, rfl, rfl, rfl, rfl, hcount⟩

/-- FINAL puts out the padded block and closes the session. -/
theorem final_step (h : SessionOpen x md key c n) (hn : 16 * n ≤ 2 ^ 32 - 32) {m : BitVec 4} (hc : i.cmd = .final m) :
    unpackBlock (x.perform k i).dout = Config.cipher key (chainIn md c (padBlock m.toNat (unpackBlock i.din)))
    ∧ SessionClosed (x.perform k i) md (n + 1) := by
  have hcount : (x.outCount + 16#32).toNat = 16 * (n + 1) := by
    rw [toNat_add_block (by have := h.outCount; omega), h.outCount]
    omega
  rw [perform_final h hc]
  obtain ⟨-, -, rfl, rfl, rfl, -⟩ := h
  exact ⟨unpackBlock_packBlock _, rfl, rfl, rfl, hcount, rfl, rfl⟩

/-- The UPDATEs and the FINAL of an open session put out the blocks of the reference, encrypted in turn. -/
theorem session_blocks {fin : Issue} {m : BitVec 4} (hfin : fin.cmd = .final m) {us : List Issue}
    (hus : ∀ u ∈ us, u.cmd = .update) (h : SessionOpen x md key c n) (hn : 16 * (n + us.length) ≤ 2 ^ 32 - 32) :
    Inst.replayOut k x (us ++ [fin]) = encryptBlocks Config.cipher md key c
        ((us.map fun u => unpackBlock u.din) ++ [padBlock m.toNat (unpackBlock fin.din)])
    ∧ SessionClosed (x.replay k (us ++ [fin])) md (n + us.length + 1) := by
  induction us generalizing x c n with
  | nil =>
    obtain ⟨hout, hclosed⟩ := final_step (k := k) h hn hfin
    refine ⟨?_, hclosed⟩
    rw [List.nil_append, Inst.replayOut, hout, List.map_nil, List.nil_append, encryptBlocks_cons]
    cases md <;> rfl
  | cons u us ih =>
    rw [List.length_cons] at hn
    obtain ⟨hout, hopen⟩ := update_step (k := k) h (by omega) (hus u List.mem_cons_self)
    obtain ⟨houts, hclosed⟩ := ih (fun v hv => hus v (List.mem_cons_of_mem u hv)) hopen (by omega)
    refine ⟨?_, ?_⟩
    · rw [List.cons_append, Inst.replayOut, hout, houts, List.map_cons, List.cons_append, encryptBlocks_cons]
    · rw [List.length_cons, show n + (us.length + 1) + 1 = n + 1 + us.length + 1 by omega]
      exact hclosed

/-- With no session open UPDATE and FINAL are refused and leave no output. -/
theorem noSession_step (h : NoSession x) (hc : i.cmd = .update ∨ ∃ m, i.cmd = .final m) :
    NoSession (x.perform k i) ∧ (x.perform k i).err = .sequenceError := by
  have hissue : (x.withInputs i).issue i.cmd = (x.withInputs i).refuse .sequenceError := by
    rcases hc with hc | ⟨m, hc⟩ <;> rw [hc]
    · exact issueUpdate_closed (x := x.withInputs i) h.active
    · exact issueFinal_closed (x := x.withInputs i) h.active m
  have hidle : ((x.withInputs i).refuse .sequenceError).busy = false := h.idle
  rw [Inst.perform, hissue, engine_idle hidle]
  exact ⟨⟨h.active, h.idle, h.outCount, h.outValid, h.dout⟩, rfl⟩

theorem noSession_replay {is : List Issue} (h : NoSession x) (his : ∀ i ∈ is, i.cmd = .update ∨ ∃ m, i.cmd = .final m) :
    NoSession (x.replay k is) ∧ Inst.replayOut k x is = List.replicate is.length zeroBlock := by
  induction is generalizing x with
  | nil => exact ⟨h, rfl⟩
  | cons i is ih =>
    obtain ⟨hnext, -⟩ := noSession_step (k := k) h (his i List.mem_cons_self)
    obtain ⟨hend, hout⟩ := ih hnext fun j hj => his j (List.mem_cons_of_mem i hj)
    refine ⟨hend, ?_⟩
    rw [Inst.replayOut, hnext.dout, unpackBlock_zero, hout, List.length_cons, List.replicate_succ]

theorem update_or_final {us : List Issue} {fin : Issue} {m : BitVec 4} (hus : ∀ u ∈ us, u.cmd = .update)
    (hfin : fin.cmd = .final m) : ∀ i ∈ us ++ [fin], i.cmd = .update ∨ ∃ m, i.cmd = .final m := by
  intro i hi
  rcases List.mem_append.mp hi with hi | hi
  · exact .inl (hus i hi)
  · obtain rfl := List.mem_singleton.mp hi
    exact .inr ⟨m, hfin⟩

end

/-! ### The blocks of the padded plaintext -/

section
variable {m : Nat} (bs : List Bytes16) (d : Bytes16)

theorem session_plaintext_length (hm : m < 16) :
    (joinBlocks bs ++ (blockBytes d).take m).length = 16 * bs.length + m := by
  rw [List.length_append, joinBlocks_length, List.length_take, blockBytes_length]
  omega

theorem chunks_pad_session (hm : m < 16) :
    chunks (pad (joinBlocks bs ++ (blockBytes d).take m)) = bs ++ [padBlock m d] := by
  have hlen : padLen (16 * bs.length + m) = 16 - m := by
    unfold padLen
    omega
  rw [pad, session_plaintext_length bs d hm, hlen, List.append_assoc, ← blockBytes_padBlock hm, chunks_join_append]
  rfl

end

/-! ### The obligations -/

/-- Settles O48: each step keeps the replay of what is still to be issued, once what is in flight is completed. -/
theorem timingDoesNotMatter : Obligations.TimingDoesNotMatter := by
  intro k n s t x y hev hrun hx hy
  induction n generalizing s x with
  | zero =>
    obtain rfl := Host.Outcome.next.inj hrun
    obtain rfl := Option.some.inj (hx.symm.trans hy)
    rfl
  | succ n ih =>
    obtain ⟨u, hu, hrun⟩ := run_succ_next hrun
    have hr : ¬ s.resets k := fun hr => (event_of_resets hr).elim (fun he => (hev _ he).1 rfl) fun he => (hev _ he).2 rfl
    have hlt : k < u.insts.length := step_length hu ▸ index_lt hx
    have hz : u.insts[k]? = some u.insts[k] := List.getElem?_eq_getElem hlt
    rw [ih u _ (fun e he => hev e (step_events hu he)) hrun hz, step_replay hu hx hz hr]
    simp only [issues, hu]

/-- Settles O49: START opens the session, the UPDATEs and FINAL put out the blocks of the padded plaintext encrypted in
turn; if START fails they are all refused. -/
theorem commandsComputeTransform : Obligations.CommandsComputeTransform := by
  intro k x md st fin us m ha hb hst hus hfin hlen
  have hm : m.toNat < 16 := m.isLt
  have hplen := session_plaintext_length (us.map fun u => unpackBlock u.din) (unpackBlock fin.din) hm
  rw [List.length_map] at hplen
  refine ⟨_, (x.perform k st).replay k (us ++ [fin]), rfl, rfl, ?_⟩
  cases hok : Config.initOk k x.draws with
  | true =>
    unfold lMax at hlen
    obtain ⟨hout, hclosed⟩ := session_blocks hfin hus (start_opens ha hst hok) (by omega)
    refine ⟨hclosed.active, hclosed.idle, ?_⟩
    rw [if_pos rfl]
    refine ⟨?_, ?_, hclosed.outValid, hclosed.err, hclosed.modeL⟩
    · rw [hout, transform, chunks_pad_session _ _ hm]
    · rw [hclosed.outCount, hplen]
      omega
  | false =>
    obtain ⟨hstart, herr⟩ := start_fails ha hst hok
    have hmid := (noSession_replay (k := k) hstart fun u hu => .inl (hus u hu)).1
    obtain ⟨hend, hlast⟩ := noSession_step (k := k) hmid (.inr ⟨m, hfin⟩)
    have hreplay : (x.perform k st).replay k (us ++ [fin]) = ((x.perform k st).replay k us).perform k fin :=
      List.foldl_concat ..
    rw [hreplay]
    exact ⟨hend.active, hend.idle, herr, hlast, hend.outCount, hend.outValid, hend.dout⟩

end Sys2Proof.Machine
end

section
/-! The canonical session as the host sees it (41_commands R146): runs of the host's events, put together from its loads,
commands and readouts (30_encoding R78, R79), and the commands they issue. -/

namespace Sys2Proof.Machine

/-! ### Runs of the host's events -/

section
variable {k : Nat} {x y z : Inst} {es es' : List Event} {ws ws' : List Word}

/-- The events `es` take instance `k` from `x` to `y`, one step each, with nothing waiting before or after, and the host
reads the words `ws`; no other instance changes. -/
def Serves (k : Nat) (es : List Event) (x y : Inst) (ws : List Word) : Prop :=
  ∀ (s : State) (rest : List Event), s.insts[k]? = some x → s.waiting = [] → s.events = es ++ rest →
    ∃ t, Host.Core.run core es.length s = .next t ∧ t.insts = s.insts.set k y ∧ t.waiting = [] ∧ t.events = rest
      ∧ reads es.length s = ws

theorem Serves.append (h : Serves k es x y ws) (h' : Serves k es' y z ws') : Serves k (es ++ es') x z (ws ++ ws') := by
  intro s rest hx hw he
  obtain ⟨t, hrun, hinsts, hwait, hev, hread⟩ := h s (es' ++ rest) hx hw (by rw [he, List.append_assoc])
  obtain ⟨u, hrun', hinsts', hwait', hev', hread'⟩ := h' t rest (hinsts ▸ set_at hx y) hwait hev
  rw [List.length_append]
  exact ⟨u, run_add _ _ hrun hrun', by rw [hinsts', hinsts, List.set_set], hwait', hev',
    by rw [reads_add _ _ hrun, hread, hread']⟩

/-- One event, by the step it takes. -/
theorem serves_single {e : Event} (h : ∀ (s : State) (rest : List Event), s.insts[k]? = some x → s.waiting = [] →
      s.events = e :: rest →
      ∃ t, step s = .next t ∧ t.insts = s.insts.set k y ∧ t.waiting = [] ∧ t.events = rest ∧ t.readWord = ws) :
    Serves k [e] x y ws := by
  intro s rest hx hw he
  obtain ⟨t, ht, hinsts, hwait, hev, hread⟩ := h s rest hx hw he
  exact ⟨t, run_succ 0 ht, hinsts, hwait, hev, by simp [reads, ht, hread]⟩

/-- The word of a response, if it is a read's. -/
def Response.words : Response → List Word
  | .data w => [w]
  | _ => []

theorem readWord_respond (s : State) (r : Response) : (s.respond r).readWord = r.words := by
  cases r <;> rfl

/-- A 4-byte access that completes at once. -/
theorem serves_access {off : Nat} {dir : Dir} {r : Response} (ho : off < 0x100)
    (h : ∀ s : State, s.insts[k]? = some x →
      exec (decodeAccess ⟨k, BitVec.ofNat 8 off, 4, dir⟩) s = .next ((s.setInst k y).respond r)) :
    Serves k [.access (busAddr k off) 4 dir] x y r.words :=
  serves_single fun _ _ hx hw he => ⟨_, (step_access (index_lt hx) ho hw he).trans (h _ hx), rfl, hw, rfl,
    readWord_respond _ r⟩

theorem serves_complete (x : Inst) : Serves k [.complete k] x (x.engine k) [] :=
  serves_single fun _ _ hx hw he => ⟨_, step_completion hx (by simp [hw]) he, rfl, hw, rfl, rfl⟩

/-! ### Loads, commands and readouts -/

/-- Four writes load a value into four registers, `f q` being the instance with `q` in them (R79). -/
theorem serves_load {off : Nat} (f : Quad Word → Inst) (ho : off + 12 < 0x100)
    (h : ∀ j < 4, ∀ (q : Quad Word) (v : Word) (s : State), s.insts[k]? = some (f q) →
      exec (decodeAccess ⟨k, BitVec.ofNat 8 (off + 4 * j), 4, .write v⟩) s
        = .next ((s.setInst k (f (q.set j v))).respond .written))
    (q : Quad Word) (b : Bytes16) : Serves k (loadEvents k off b) (f q) (f (packBlock b)) [] := by
  have hwrite (j : Nat) (hj : j < 4) (q : Quad Word) (v : Word) :
      Serves k [wrEvent k (off + 4 * j) v] (f q) (f (q.set j v)) [] :=
    serves_access (r := .written) (by omega) (h j hj q v)
  exact (((hwrite 0 (by decide) q _).append (hwrite 1 (by decide) _ _)).append (hwrite 2 (by decide) _ _)).append
    (hwrite 3 (by decide) _ _)

theorem decodeAccess_of_encode {i : Instr} {a : Access} (hi : i.wf = true) (he : encode i = .bus32 a) :
    decodeAccess a = i := by
  have hdecode := decodeEncodeRoundTrip i hi
  rwa [he] at hdecode

theorem decodeAccess_wrKey {j : Nat} (hj : j < 4) (v : Word) :
    decodeAccess ⟨k, BitVec.ofNat 8 (0x10 + 4 * j), 4, .write v⟩ = wrKeyAt j k v := by
  interval_cases j <;> exact decodeAccess_of_encode rfl rfl

theorem decodeAccess_wrIv {j : Nat} (hj : j < 4) (v : Word) :
    decodeAccess ⟨k, BitVec.ofNat 8 (0x20 + 4 * j), 4, .write v⟩ = wrIvAt j k v := by
  interval_cases j <;> exact decodeAccess_of_encode rfl rfl

theorem decodeAccess_wrDin {j : Nat} (hj : j < 4) (v : Word) :
    decodeAccess ⟨k, BitVec.ofNat 8 (0x30 + 4 * j), 4, .write v⟩ = wrDinAt j k v := by
  interval_cases j <;> exact decodeAccess_of_encode rfl rfl

/-- `LOADKEY` (R79). -/
theorem serves_loadKey (x : Inst) (b : Bytes16) :
    Serves k (loadEvents k 0x10 b) x { x with key := packBlock b } [] :=
  serves_load (fun q => { x with key := q }) (by decide)
    (fun j hj q v s hs => by rw [decodeAccess_wrKey hj, exec_wrKeyAt]; exact writeInst_some hs _) x.key b

/-- `LOADIV` (R79). -/
theorem serves_loadIv (x : Inst) (b : Bytes16) :
    Serves k (loadEvents k 0x20 b) x { x with iv := packBlock b } [] :=
  serves_load (fun q => { x with iv := q }) (by decide)
    (fun j hj q v s hs => by rw [decodeAccess_wrIv hj, exec_wrIvAt]; exact writeInst_some hs _) x.iv b

/-- `LOADDIN` (R79). -/
theorem serves_loadDin (x : Inst) (b : Bytes16) :
    Serves k (loadEvents k 0x30 b) x { x with din := packBlock b } [] :=
  serves_load (fun q => { x with din := q }) (by decide)
    (fun j hj q v s hs => by rw [decodeAccess_wrDin hj, exec_wrDinAt]; exact writeInst_some hs _) x.din b

/-- A command issued while idle, and its completion. -/
theorem serves_command (hb : x.busy = false) {c : Command} (hc : decodeWord c.word = c) :
    Serves k (commandEvents k c) x (x.perform k ⟨c, x.key, x.iv, x.din⟩) [] := by
  have hissue : Serves k [wrEvent k 0x00 c.word] x (x.issue c) [] :=
    serves_access (r := .written) (by decide) fun s hs => by
      have hdecode : decodeAccess ⟨k, BitVec.ofNat 8 0x00, 4, .write c.word⟩ = .wrCmd k c.word :=
        decodeAccess_cmdWrite k c.word
      have hexec : exec (.wrCmd k c.word) s
          = .next ((s.setInst k (x.issue (decodeWord c.word))).respond .written) := cmdWrite_idle hs hb _ _
      rw [hdecode, hexec, hc]
  exact hissue.append (serves_complete _)

/-- `READOUT` of an idle instance (R79). -/
theorem serves_readOut (hb : x.busy = false) : Serves k (readOutEvents k) x x x.dout.toList := by
  have hread (j : Nat) (hj : j < 4) : Serves k [rdEvent k (0x40 + 4 * j)] x x [x.dout.get j] :=
    serves_access (r := .data (x.dout.get j)) (by omega) fun s hs => by
      rw [State.setInst, set_inst_self hs]
      exact exec_doutAccess_idle hj hs hb
  exact (((hread 0 (by decide)).append (hread 1 (by decide))).append (hread 2 (by decide))).append (hread 3 (by decide))

/-- A block loaded, its command, and the output read. -/
theorem serves_block (hb : x.busy = false) {c : Command} (hc : decodeWord c.word = c) (b : Bytes16) :
    Serves k (loadEvents k 0x30 b ++ commandEvents k c ++ readOutEvents k) x
      (x.perform k ⟨c, x.key, x.iv, packBlock b⟩) (x.perform k ⟨c, x.key, x.iv, packBlock b⟩).dout.toList := by
  have hcommand : Serves k (commandEvents k c) { x with din := packBlock b }
      (x.perform k ⟨c, x.key, x.iv, packBlock b⟩) [] := serves_command (x := { x with din := packBlock b }) hb hc
  exact ((serves_loadDin x b).append hcommand).append (serves_readOut (perform_busy k x _))

/-! ### The session -/

/-- The issue of `c` with KEY, IV and DIN loaded. -/
def loadedIssue (key iv : Bytes16) (c : Command) (b : Bytes16) : Issue := ⟨c, packBlock key, packBlock iv, packBlock b⟩

/-- The words of the output blocks after each command of a replay. -/
def outWords (k : Nat) (x : Inst) (is : List Issue) : List Word :=
  ((Inst.replayOut k x is).map fun c => (packBlock c).toList).flatten

theorem outWords_cons (k : Nat) (x : Inst) (i : Issue) (is : List Issue) :
    outWords k x (i :: is) = (x.perform k i).dout.toList ++ outWords k (x.perform k i) is := by
  rw [outWords, Inst.replayOut, List.map_cons, List.flatten_cons, packBlock_unpackBlock]
  rfl

theorem perform_inputs (k : Nat) (x : Inst) (i : Issue) : (x.perform k i).key = i.key ∧ (x.perform k i).iv = i.iv := by
  obtain ⟨hkey, hiv, -⟩ := engine_keeps_inputs k ((x.withInputs i).issue i.cmd)
  obtain ⟨hkey', hiv', -⟩ := issue_inputs i.cmd (x.withInputs i)
  exact ⟨hkey.trans hkey', hiv.trans hiv'⟩

/-- The blocks of the session and its FINAL, after START. -/
theorem serves_blocks {key iv d : Bytes16} (m : BitVec 4) (bs : List Bytes16) (hb : x.busy = false)
    (hkey : x.key = packBlock key) (hiv : x.iv = packBlock iv) :
    Serves k ((bs.map (blockEvents k)).flatten
        ++ (loadEvents k 0x30 d ++ commandEvents k (.final m) ++ readOutEvents k)) x
      (x.replay k (bs.map (loadedIssue key iv .update) ++ [loadedIssue key iv (.final m) d]))
      (outWords k x (bs.map (loadedIssue key iv .update) ++ [loadedIssue key iv (.final m) d])) := by
  induction bs generalizing x with
  | nil =>
    have hfinal := serves_block (k := k) (c := .final m) hb (decodeWord_finalWord m) d
    rw [hkey, hiv] at hfinal
    rw [List.map_nil, List.map_nil, List.nil_append, outWords_cons]
    simpa [outWords, Inst.replayOut, Inst.replay, loadedIssue] using hfinal
  | cons b bs ih =>
    have hblock := serves_block (k := k) (c := .update) hb (by decide) b
    rw [hkey, hiv] at hblock
    obtain ⟨hkey', hiv'⟩ := perform_inputs k x (loadedIssue key iv .update b)
    rw [List.map_cons, List.map_cons, List.flatten_cons, List.append_assoc, List.cons_append, outWords_cons]
    exact hblock.append (ih (perform_busy k x _) hkey' hiv')

/-- The whole session: the replay of its commands. -/
theorem serves_session (hb : x.busy = false) (md : Mode) (key iv d : Bytes16) (bs : List Bytes16) (m : BitVec 4) :
    Serves k (sessionEvents k md key iv bs m d) x
      (x.replay k (⟨.start (modeCode md), packBlock key, packBlock iv, x.din⟩
        :: bs.map (loadedIssue key iv .update) ++ [loadedIssue key iv (.final m) d]))
      (outWords k (x.perform k ⟨.start (modeCode md), packBlock key, packBlock iv, x.din⟩)
        (bs.map (loadedIssue key iv .update) ++ [loadedIssue key iv (.final m) d])) := by
  have hloads := (serves_loadKey (k := k) x key).append (serves_loadIv _ iv)
  have hstart : Serves k (commandEvents k (.start (modeCode md))) { x with key := packBlock key, iv := packBlock iv }
      (x.perform k ⟨.start (modeCode md), packBlock key, packBlock iv, x.din⟩) [] :=
    serves_command (x := { x with key := packBlock key, iv := packBlock iv }) (c := .start (modeCode md)) hb
      (decodeWord_startWord (modeCode md))
  obtain ⟨hkey, hiv⟩ := perform_inputs k x ⟨.start (modeCode md), packBlock key, packBlock iv, x.din⟩
  have hrest := serves_blocks (k := k) (d := d) m bs (perform_busy k x _) hkey hiv
  rw [sessionEvents, List.append_assoc]
  exact (hloads.append hstart).append hrest

theorem outWords_replicate_zero (m : Nat) :
    ((List.replicate m zeroBlock).map fun c => (packBlock c).toList).flatten = List.replicate (4 * m) 0#32 := by
  have hwords : (packBlock zeroBlock).toList = List.replicate 4 0#32 := congrArg Quad.toList packBlock_zero
  rw [List.map_replicate, hwords, List.flatten_replicate_replicate, Nat.mul_comm]

end

/-! ### The obligation -/

/-- Settles O50: the session is the replay of its commands with what is read after each, and those compute the reference
transform. -/
theorem canonicalSessionReadsTransform : Obligations.CanonicalSessionReadsTransform := by
  intro s k x md key iv d bs m rest hx ha hb hw he hlen
  obtain ⟨t, hrun, hinsts, hwait, hev, hread⟩ := serves_session hb md key iv d bs m s rest hx hw he
  have hus : ∀ u ∈ bs.map (loadedIssue key iv .update), u.cmd = .update := fun u hu => by
    obtain ⟨b, -, rfl⟩ := List.mem_map.mp hu
    rfl
  obtain ⟨p, z, hp, hz, hza, hzb, hend⟩ := commandsComputeTransform k x md
    ⟨.start (modeCode md), packBlock key, packBlock iv, x.din⟩ (loadedIssue key iv (.final m) d)
    (bs.map (loadedIssue key iv .update)) m ha hb rfl hus rfl (by rwa [List.length_map])
  have hdins : (bs.map (loadedIssue key iv .update)).map (fun u => unpackBlock u.din) = bs := by
    simp [loadedIssue, Function.comp_def]
  rw [hdins, loadedIssue, unpackBlock_packBlock] at hp
  rw [← hz] at hinsts
  refine ⟨t, z, p, _, hp, rfl, hrun, hinsts, hwait, hev, hza, hzb, ?_⟩
  cases hok : Config.initOk k x.draws with
  | true =>
    rw [hok, if_pos rfl, unpackBlock_packBlock, unpackBlock_packBlock] at hend
    obtain ⟨hblocks, hstatus⟩ := hend
    rw [if_pos rfl, hread, ← hblocks, chunks_joinBlocks]
    exact ⟨rfl, hstatus⟩
  | false =>
    rw [hok, if_neg (by decide)] at hend
    obtain ⟨-, herr, hcount, hvalid, -⟩ := hend
    have hstart := (start_fails ha (i := ⟨.start (modeCode md), packBlock key, packBlock iv, x.din⟩) rfl hok).1
    have houts := (noSession_replay (k := k) hstart
      (update_or_final hus (fin := loadedIssue key iv (.final m) d) rfl)).2
    rw [if_neg (by decide), hread, outWords, houts, outWords_replicate_zero]
    exact ⟨by simp, hcount, hvalid, herr⟩

end Sys2Proof.Machine
end
